-- ==== Sys2Proof/Word.lean ====
section
/-! DEFINITION. The word types of the core: bytes, 16-bit words, 12-bit addresses, register indexes.
Every value is unsigned (spec/00_scope.md R11); nothing is sign-extended (R12). -/

namespace Sys2Proof

/-- An 8-bit value: a general register, a timer, a byte of memory (R30, R38, R43). -/
abbrev Byte := BitVec 8

/-- A 16-bit value: pc, I, a stack entry, an instruction word (R34, R35, R36, R100). -/
abbrev Word := BitVec 16

/-- The 12-bit address field `nnn` of an instruction (R102). -/
abbrev Addr12 := BitVec 12

/-- The index of one of the sixteen general registers V0..VF (R30). -/
abbrev Reg := Fin 16

/-- VF, the register that is also the flag (R31). -/
abbrev Reg.vf : Reg := 15

end Sys2Proof
end

