-- ==== Sys2Proof/Syntax.lean ====
section
/-! DEFINITION. The instruction set: one constructor per row of spec/opcode_table.json, carrying the
fields of spec/30_encoding.md R102 that its format has (R101, R119). -/

namespace Sys2Proof

/-- The 34 instructions of R105. UNKNOWN words are no instruction: the decoder answers them by name
(Sys2Proof/Decode.lean). -/
inductive Instr where
  /-- 00E0 CLS: clear the framebuffer (R272). -/
  | cls
  /-- 00EE RET: return from subroutine (R170). -/
  | ret
  /-- 1nnn JP: jump (R171). -/
  | jp (nnn : Addr12)
  /-- 2nnn CALL: call subroutine (R172). -/
  | call (nnn : Addr12)
  /-- 3xkk SE: skip if Vx = kk (R173). -/
  | seImm (x : Reg) (kk : Byte)
  /-- 4xkk SNE: skip if Vx ≠ kk (R174). -/
  | sneImm (x : Reg) (kk : Byte)
  /-- 5xy0 SE: skip if Vx = Vy (R175). -/
  | seReg (x y : Reg)
  /-- 6xkk LD: load immediate (R202). -/
  | ldImm (x : Reg) (kk : Byte)
  /-- 7xkk ADD: add immediate, no carry (R203). -/
  | addImm (x : Reg) (kk : Byte)
  /-- 8xy0 LD: assign (R204). -/
  | ldReg (x y : Reg)
  /-- 8xy1 OR (R205). -/
  | orReg (x y : Reg)
  /-- 8xy2 AND (R206). -/
  | andReg (x y : Reg)
  /-- 8xy3 XOR (R207). -/
  | xorReg (x y : Reg)
  /-- 8xy4 ADD: add with carry out (R208). -/
  | addReg (x y : Reg)
  /-- 8xy5 SUB: Vx minus Vy (R209). -/
  | sub (x y : Reg)
  /-- 8xy6 SHR: the y field is encoded and ignored (R210). -/
  | shr (x y : Reg)
  /-- 8xy7 SUBN: Vy minus Vx (R211). -/
  | subn (x y : Reg)
  /-- 8xyE SHL: the y field is encoded and ignored (R212). -/
  | shl (x y : Reg)
  /-- 9xy0 SNE: skip if Vx ≠ Vy (R176). -/
  | sneReg (x y : Reg)
  /-- Annn LD I (R241). -/
  | ldI (nnn : Addr12)
  /-- Bnnn JP V0: jump with offset (R177). -/
  | jpV0 (nnn : Addr12)
  /-- Cxkk RND: random byte under mask (R213). -/
  | rnd (x : Reg) (kk : Byte)
  /-- Dxyn DRW: draw an n-row sprite (R273). -/
  | drw (x y : Reg) (n : Fin 16)
  /-- Ex9E SKP: skip if key Vx is down (R291). -/
  | skp (x : Reg)
  /-- ExA1 SKNP: skip if key Vx is up (R292). -/
  | sknp (x : Reg)
  /-- Fx07 LD Vx, DT (R310). -/
  | ldVxDt (x : Reg)
  /-- Fx0A LD Vx, K: wait for a key press (R293). -/
  | ldK (x : Reg)
  /-- Fx15 LD DT, Vx (R311). -/
  | ldDt (x : Reg)
  /-- Fx18 LD ST, Vx (R312). -/
  | ldSt (x : Reg)
  /-- Fx1E ADD I, Vx (R242). -/
  | addI (x : Reg)
  /-- Fx29 LD F, Vx: point I at a glyph (R243). -/
  | ldF (x : Reg)
  /-- Fx33 LD B, Vx: store BCD digits (R244). -/
  | ldB (x : Reg)
  /-- Fx55 LD [I], Vx: store V0..Vx (R245). -/
  | ldMemStore (x : Reg)
  /-- Fx65 LD Vx, [I]: load V0..Vx (R246). -/
  | ldMemLoad (x : Reg)
  deriving DecidableEq, Repr

end Sys2Proof
end

