-- ==== Sys2Proof/WellFormed.lean ====
section
/-! DEFINITION. Which operand numbers fit their field (spec/30_encoding.md R102), and well-formed
instructions. The field types of Instr admit only numbers that fit, so every instruction is
well-formed; the checks themselves are on plain numbers and do refuse (Tests/Slice0.lean). -/

namespace Sys2Proof

/-- A register number fits the 4-bit fields x and y (R102). -/
def regFits (r : Nat) : Bool := decide (r < 16)

/-- A row count fits the 4-bit field n (R102, R103). -/
def countFits (n : Nat) : Bool := decide (n < 16)

/-- An immediate fits the 8-bit field kk (R102). -/
def immFits (kk : Nat) : Bool := decide (kk < 256)

/-- An address fits the 12-bit field nnn (R102). -/
def addrFits (nnn : Nat) : Bool := decide (nnn < 4096)

/-- Every operand of the instruction fits its field of the word. -/
def Instr.wellFormed : Instr → Bool
  | .cls => true
  | .ret => true
  | .jp nnn => addrFits nnn.toNat
  | .call nnn => addrFits nnn.toNat
  | .seImm x kk => regFits x && immFits kk.toNat
  | .sneImm x kk => regFits x && immFits kk.toNat
  | .seReg x y => regFits x && regFits y
  | .ldImm x kk => regFits x && immFits kk.toNat
  | .addImm x kk => regFits x && immFits kk.toNat
  | .ldReg x y => regFits x && regFits y
  | .orReg x y => regFits x && regFits y
  | .andReg x y => regFits x && regFits y
  | .xorReg x y => regFits x && regFits y
  | .addReg x y => regFits x && regFits y
  | .sub x y => regFits x && regFits y
  | .shr x y => regFits x && regFits y
  | .subn x y => regFits x && regFits y
  | .shl x y => regFits x && regFits y
  | .sneReg x y => regFits x && regFits y
  | .ldI nnn => addrFits nnn.toNat
  | .jpV0 nnn => addrFits nnn.toNat
  | .rnd x kk => regFits x && immFits kk.toNat
  | .drw x y n => regFits x && regFits y && countFits n
  | .skp x => regFits x
  | .sknp x => regFits x
  | .ldVxDt x => regFits x
  | .ldK x => regFits x
  | .ldDt x => regFits x
  | .ldSt x => regFits x
  | .addI x => regFits x
  | .ldF x => regFits x
  | .ldB x => regFits x
  | .ldMemStore x => regFits x
  | .ldMemLoad x => regFits x

end Sys2Proof
end

