-- ==== Sys2Proof/Decode.lean ====
section
/-! DEFINITION. The decoder (spec/30_encoding.md R102-R115), in both settings of STRICT_DECODE, the
encoder, and the opcode table's masks. Decoding reads no state and cannot fail (R115): a word that
is no instruction is answered by name. -/

namespace Sys2Proof

/-- `v[hi:lo]`, the unsigned value of bits hi down to lo, inclusive (R12). -/
def bits (w : Word) (hi lo : Nat) : Nat := w.toNat / 2 ^ lo % 2 ^ (hi + 1 - lo)

/-- op = w[15:12], the instruction family (R102). -/
def fieldOp (w : Word) : Nat := bits w 15 12

/-- x = w[11:8] (R102). -/
def fieldX (w : Word) : Reg := Fin.ofNat 16 (bits w 11 8)

/-- y = w[7:4] (R102). -/
def fieldY (w : Word) : Reg := Fin.ofNat 16 (bits w 7 4)

/-- n = w[3:0] (R102). -/
def fieldN (w : Word) : Fin 16 := Fin.ofNat 16 (bits w 3 0)

/-- kk = w[7:0] (R102). -/
def fieldKk (w : Word) : Byte := BitVec.ofNat 8 (bits w 7 0)

/-- nnn = w[11:0] (R102). -/
def fieldNnn (w : Word) : Addr12 := BitVec.ofNat 12 (bits w 11 0)

/-- What a word decodes to: one of the 34 instructions, or UNKNOWN with its word (R115, R119). -/
inductive Decoded where
  /-- An instruction with its fields. -/
  | instr (i : Instr)
  /-- No instruction: its cycle emits UnknownOpcode and goes on (R112, R147). -/
  | unknown (w : Word)
  deriving DecidableEq, Repr

/-- Family 0x0: the strict decoder matches the whole word (R106); the lax one looks at kk alone
(R114). -/
def decode0 (strict : Bool) (w : Word) : Decoded :=
  if strict && bits w 11 8 != 0 then .unknown w
  else match bits w 7 0 with
    | 0xE0 => .instr .cls
    | 0xEE => .instr .ret
    | _ => .unknown w

/-- Families 0x5 and 0x9: the strict decoder requires n = 0 (R107), the lax one ignores n (R114). -/
def decodeXy0 (strict : Bool) (w : Word) (i : Instr) : Decoded :=
  if strict && bits w 3 0 != 0 then .unknown w else .instr i

/-- Family 0x8, selected by n (R108). -/
def decode8 (w : Word) : Decoded :=
  match bits w 3 0 with
  | 0x0 => .instr (.ldReg (fieldX w) (fieldY w))
  | 0x1 => .instr (.orReg (fieldX w) (fieldY w))
  | 0x2 => .instr (.andReg (fieldX w) (fieldY w))
  | 0x3 => .instr (.xorReg (fieldX w) (fieldY w))
  | 0x4 => .instr (.addReg (fieldX w) (fieldY w))
  | 0x5 => .instr (.sub (fieldX w) (fieldY w))
  | 0x6 => .instr (.shr (fieldX w) (fieldY w))
  | 0x7 => .instr (.subn (fieldX w) (fieldY w))
  | 0xE => .instr (.shl (fieldX w) (fieldY w))
  | _ => .unknown w

/-- Family 0xE, selected by kk (R109). -/
def decodeE (w : Word) : Decoded :=
  match bits w 7 0 with
  | 0x9E => .instr (.skp (fieldX w))
  | 0xA1 => .instr (.sknp (fieldX w))
  | _ => .unknown w

/-- Family 0xF, selected by kk (R110). -/
def decodeF (w : Word) : Decoded :=
  match bits w 7 0 with
  | 0x07 => .instr (.ldVxDt (fieldX w))
  | 0x0A => .instr (.ldK (fieldX w))
  | 0x15 => .instr (.ldDt (fieldX w))
  | 0x18 => .instr (.ldSt (fieldX w))
  | 0x1E => .instr (.addI (fieldX w))
  | 0x29 => .instr (.ldF (fieldX w))
  | 0x33 => .instr (.ldB (fieldX w))
  | 0x55 => .instr (.ldMemStore (fieldX w))
  | 0x65 => .instr (.ldMemLoad (fieldX w))
  | _ => .unknown w

/-- The decode map of R105 (`strict = true`) and of R114 (`strict = false`). -/
def decodeWord (strict : Bool) (w : Word) : Decoded :=
  match fieldOp w with
  | 0x0 => decode0 strict w
  | 0x1 => .instr (.jp (fieldNnn w))
  | 0x2 => .instr (.call (fieldNnn w))
  | 0x3 => .instr (.seImm (fieldX w) (fieldKk w))
  | 0x4 => .instr (.sneImm (fieldX w) (fieldKk w))
  | 0x5 => decodeXy0 strict w (.seReg (fieldX w) (fieldY w))
  | 0x6 => .instr (.ldImm (fieldX w) (fieldKk w))
  | 0x7 => .instr (.addImm (fieldX w) (fieldKk w))
  | 0x8 => decode8 w
  | 0x9 => decodeXy0 strict w (.sneReg (fieldX w) (fieldY w))
  | 0xA => .instr (.ldI (fieldNnn w))
  | 0xB => .instr (.jpV0 (fieldNnn w))
  | 0xC => .instr (.rnd (fieldX w) (fieldKk w))
  | 0xD => .instr (.drw (fieldX w) (fieldY w) (fieldN w))
  | 0xE => decodeE w
  | 0xF => decodeF w
  | _ => .unknown w

/-- The words the two decoders read differently: 0x5xyN and 0x9xyN with N ≠ 0, and 0x0xE0 and 0x0xEE
with x ≠ 0 (R114, DECODE_AMBIGUOUS). -/
def decodeAmbiguous (w : Word) : Bool :=
  ((fieldOp w == 0x5 || fieldOp w == 0x9) && bits w 3 0 != 0)
    || (fieldOp w == 0x0 && bits w 11 8 != 0 && (bits w 7 0 == 0xE0 || bits w 7 0 == 0xEE))

/-- The word of two bytes in fetch order: the first, at the lower address, is the more significant
(R76, R77). -/
def wordOfBytes (hi lo : Byte) : Word := BitVec.ofNat 16 (hi.toNat * 256 + lo.toNat)

/-- The two bytes of a word in the order they stand in memory (R77). -/
def bytesOfWord (w : Word) : List Byte := [BitVec.ofNat 8 (bits w 15 8), BitVec.ofNat 8 (bits w 7 0)]

/-- Why a byte sequence gives no instruction. -/
inductive Rejection where
  /-- Its first two bytes are an UNKNOWN word (R111). -/
  | unknownWord (w : Word)
  /-- It holds fewer than the two bytes every instruction has (R100). -/
  | tooShort
  deriving DecidableEq, Repr

/-- The decoder over bytes: every instruction is exactly two bytes (R100). It answers the instruction
and the bytes after it, or the reason there is none. -/
def decodeBytes (strict : Bool) : List Byte → Sum Rejection (Instr × List Byte)
  | hi :: lo :: rest =>
    match decodeWord strict (wordOfBytes hi lo) with
    | .instr i => .inr (i, rest)
    | .unknown w => .inl (.unknownWord w)
  | _ => .inl .tooShort

/-- The instruction word whose bits, numbered as spec/opcode_table.json numbers them, are the low
nbits of w, every higher bit zero. -/
def tableWord (nbits w : Nat) : Word := BitVec.ofNat 16 (w % 2 ^ nbits)

/-- What the decoder, in its default strict setting, reads from an instruction whose bits are w. -/
def decodeTableWord (nbits w : Nat) : Option Instr :=
  match decodeBytes true (bytesOfWord (tableWord nbits w)) with
  | .inr (i, _) => some i
  | .inl _ => none

/-- A word from its four nibbles, bits 15..12 first (R101). -/
def nibbles (a b c d : Nat) : Word := BitVec.ofNat 16 (a * 4096 + b * 256 + c * 16 + d)

/-- Format NNN: op, nnn (R101). -/
def encNnn (op : Nat) (nnn : Addr12) : Word := BitVec.ofNat 16 (op * 4096 + nnn.toNat)

/-- Format XKK: op, x, kk (R101). -/
def encXkk (op : Nat) (x : Reg) (kk : Byte) : Word := BitVec.ofNat 16 (op * 4096 + x.val * 256 + kk.toNat)

/-- The word of an instruction (R101, spec/opcode_table.json). -/
def encode : Instr → Word
  | .cls => nibbles 0x0 0x0 0xE 0x0
  | .ret => nibbles 0x0 0x0 0xE 0xE
  | .jp nnn => encNnn 0x1 nnn
  | .call nnn => encNnn 0x2 nnn
  | .seImm x kk => encXkk 0x3 x kk
  | .sneImm x kk => encXkk 0x4 x kk
  | .seReg x y => nibbles 0x5 x y 0x0
  | .ldImm x kk => encXkk 0x6 x kk
  | .addImm x kk => encXkk 0x7 x kk
  | .ldReg x y => nibbles 0x8 x y 0x0
  | .orReg x y => nibbles 0x8 x y 0x1
  | .andReg x y => nibbles 0x8 x y 0x2
  | .xorReg x y => nibbles 0x8 x y 0x3
  | .addReg x y => nibbles 0x8 x y 0x4
  | .sub x y => nibbles 0x8 x y 0x5
  | .shr x y => nibbles 0x8 x y 0x6
  | .subn x y => nibbles 0x8 x y 0x7
  | .shl x y => nibbles 0x8 x y 0xE
  | .sneReg x y => nibbles 0x9 x y 0x0
  | .ldI nnn => encNnn 0xA nnn
  | .jpV0 nnn => encNnn 0xB nnn
  | .rnd x kk => encXkk 0xC x kk
  | .drw x y n => nibbles 0xD x y n
  | .skp x => nibbles 0xE x 0x9 0xE
  | .sknp x => nibbles 0xE x 0xA 0x1
  | .ldVxDt x => nibbles 0xF x 0x0 0x7
  | .ldK x => nibbles 0xF x 0x0 0xA
  | .ldDt x => nibbles 0xF x 0x1 0x5
  | .ldSt x => nibbles 0xF x 0x1 0x8
  | .addI x => nibbles 0xF x 0x1 0xE
  | .ldF x => nibbles 0xF x 0x2 0x9
  | .ldB x => nibbles 0xF x 0x3 0x3
  | .ldMemStore x => nibbles 0xF x 0x5 0x5
  | .ldMemLoad x => nibbles 0xF x 0x6 0x5

/-- The mask and match of the instruction's row of spec/opcode_table.json. -/
def tableRow : Instr → Word × Word
  | .cls => (0xFFFF, 0x00E0)
  | .ret => (0xFFFF, 0x00EE)
  | .jp _ => (0xF000, 0x1000)
  | .call _ => (0xF000, 0x2000)
  | .seImm _ _ => (0xF000, 0x3000)
  | .sneImm _ _ => (0xF000, 0x4000)
  | .seReg _ _ => (0xF00F, 0x5000)
  | .ldImm _ _ => (0xF000, 0x6000)
  | .addImm _ _ => (0xF000, 0x7000)
  | .ldReg _ _ => (0xF00F, 0x8000)
  | .orReg _ _ => (0xF00F, 0x8001)
  | .andReg _ _ => (0xF00F, 0x8002)
  | .xorReg _ _ => (0xF00F, 0x8003)
  | .addReg _ _ => (0xF00F, 0x8004)
  | .sub _ _ => (0xF00F, 0x8005)
  | .shr _ _ => (0xF00F, 0x8006)
  | .subn _ _ => (0xF00F, 0x8007)
  | .shl _ _ => (0xF00F, 0x800E)
  | .sneReg _ _ => (0xF00F, 0x9000)
  | .ldI _ => (0xF000, 0xA000)
  | .jpV0 _ => (0xF000, 0xB000)
  | .rnd _ _ => (0xF000, 0xC000)
  | .drw _ _ _ => (0xF000, 0xD000)
  | .skp _ => (0xF0FF, 0xE09E)
  | .sknp _ => (0xF0FF, 0xE0A1)
  | .ldVxDt _ => (0xF0FF, 0xF007)
  | .ldK _ => (0xF0FF, 0xF00A)
  | .ldDt _ => (0xF0FF, 0xF015)
  | .ldSt _ => (0xF0FF, 0xF018)
  | .addI _ => (0xF0FF, 0xF01E)
  | .ldF _ => (0xF0FF, 0xF029)
  | .ldB _ => (0xF0FF, 0xF033)
  | .ldMemStore _ => (0xF0FF, 0xF055)
  | .ldMemLoad _ => (0xF0FF, 0xF065)

end Sys2Proof
end

