-- ==== Sys2Proof/Config.lean ====
section
/-! DEFINITION. What the spec fixes for this hardware, the named parameters it leaves as model
arguments (spec/00_scope.md R9), and the one free value (the random byte of Cxkk). -/

namespace Sys2Proof

/-- MEM_SIZE: 4096 bytes (R9, R43). -/
abbrev memSize : Nat := 4096

/-- FONT_BASE: the fontset starts at 0x050 (R9, R72). -/
abbrev fontBase : Nat := 0x050

/-- FONT_GLYPH_BYTES: five bytes per glyph (R9, R381). -/
abbrev glyphBytes : Nat := 5

/-- PROG_BASE: programs are loaded, and execution starts, at 0x200 (R9, R72). -/
abbrev progBase : Nat := 0x200

/-- ROM_MAX: 3584 bytes (R9, R384). -/
abbrev romMax : Nat := 0xE00

/-- The two values of the parameter KEY_INDEX_POLICY (R9, R290). -/
inductive KeyIndexPolicy where
  /-- A key index above 0xF raises KEY_INDEX_OUT_OF_RANGE (the default). -/
  | fault
  /-- Only the low nibble of the register is used. -/
  | mask4
  deriving DecidableEq, Repr

/-- The fontset: sixteen glyphs of five bytes, top row first (R381). -/
abbrev Font := Vector (Vector Byte 5) 16

/-- The parameters of R9 that some rule of the core or of the host's restart reads. A state carries
them and no step changes them, so a statement about every state holds for every setting
(log entry 4). -/
structure Params where
  /-- STRICT_DECODE: true selects the map of R105, false the lax decoder of R114. -/
  strictDecode : Bool
  /-- VF_FLAG_LAST: which write to VF survives when x = 0xF (R201). -/
  vfFlagLast : Bool
  /-- KEY_INDEX_POLICY (R290). -/
  keyIndexPolicy : KeyIndexPolicy
  /-- CYCLES_PER_TICK: the size of a tick's batch (R341). -/
  cyclesPerTick : Nat
  /-- FONT: the bytes reset installs at 0x050..0x09F (R381). -/
  font : Font
  /-- RESTART_RELOADS: whether the host's restart loads the last image again (R388). -/
  restartReloads : Bool
  deriving DecidableEq, Repr

/-- FREE VALUE (R213, 92_eei_decisions.md D17; log entry 3): the byte of the k-th random draw. It has
no body, so nothing can be proved about it: "every 8-bit value is admitted". -/
opaque Config.draw8 : Nat → Byte

end Sys2Proof
end

