-- ==== Sys2Proof/Machine/State.lean ====
section
/-! DEFINITION. The state of the core (spec/10_state.md), the model's own fields beside it (pending
host operations, the tick in progress, the output trace, the draw counter), and the state after
reset. Plain data throughout. -/

namespace Sys2Proof.Machine

/-- Reasons for `Host.Outcome.fault`. It has no constructor: nothing in this model raises one. The
spec describes what every fatal condition does (it latches, R322), so each is a NEXT state with the
latch set, and an access outside memory is such a condition (R82). Safe: no step is cut short. -/
inductive Fault where
  deriving DecidableEq, Repr

/-- Reasons for `Host.Outcome.refused`. -/
inductive Refusal where
  /-- An instruction without a meaning yet, by its mnemonic. Raised by no arm of exec: every
  instruction of the table has its meaning. Safe: it would only stop the machine. -/
  | notModelled (mnemonic : String)
  deriving DecidableEq, Repr

/-- fault.kind (R42): the fatal conditions the latch can hold. -/
inductive FaultKind where
  /-- NONE: the core is not faulted. -/
  | none
  /-- FETCH_OUT_OF_BOUNDS: pc + 1 is past memory (R142). -/
  | fetchOutOfBounds
  /-- STACK_OVERFLOW: 2nnn with SP = 16 (R172). -/
  | stackOverflow
  /-- STACK_UNDERFLOW: 00EE with SP = 0 (R170). -/
  | stackUnderflow
  /-- ADDRESS_OUT_OF_BOUNDS: a data access past memory (R240). -/
  | addressOutOfBounds
  /-- KEY_INDEX_OUT_OF_RANGE: Ex9E, ExA1 with Vx > 0xF under KEY_INDEX_POLICY = Fault (R290). -/
  | keyIndexOutOfRange
  deriving DecidableEq, Repr

/-- The fault latch (R42). -/
structure FaultLatch where
  /-- fault.kind. -/
  kind : FaultKind
  /-- fault.info, an unsigned integer (R323). -/
  info : Nat
  deriving DecidableEq, Repr

/-- What an operation returns to the host (R148, R333, R384, R356). -/
inductive OpResult where
  /-- Ok: the operation completed. -/
  | ok
  /-- Fatal(kind, info): a cycle of the operation raised a fatal condition. -/
  | fatal (kind : FaultKind) (info : Nat)
  /-- Halted(fault): the core was faulted when the operation was invoked. -/
  | halted (kind : FaultKind) (info : Nat)
  /-- RomTooLarge: `load` rejected the image (R384). -/
  | romTooLarge
  deriving DecidableEq, Repr

/-- One entry of the output trace: the two events (R152) and the results of the host's operations. -/
inductive Output where
  /-- UnknownOpcode(word, address) (R327). -/
  | unknownOpcode (word address : Word)
  /-- PlayBeep (R343, R352). -/
  | playBeep
  /-- The result an operation of the host returned. -/
  | returned (r : OpResult)
  deriving DecidableEq, Repr

/-- A host operation (R8, R356, R357), or `pass`: the host does nothing at this boundary between two
core steps, so a core step in progress goes on. Key numbers are integers, since an event outside
0..15 is ignored, not impossible (R294). -/
inductive HostOp where
  /-- `reset()` (R380). -/
  | reset
  /-- `load(bytes)` (R383). -/
  | load (bytes : List Byte)
  /-- `cycle()` (R140). -/
  | cycle
  /-- `step()` (R345). -/
  | step
  /-- `tick()` (R341). -/
  | tick
  /-- `setKeyDown(k)` (R294). -/
  | setKeyDown (k : Int)
  /-- `setKeyUp(k)` (R295). -/
  | setKeyUp (k : Int)
  /-- The control surface's restart (R388). -/
  | restart
  /-- No host operation at this boundary. -/
  | pass
  deriving DecidableEq, Repr

/-- Memory: the bytes that differ from the reset contents, by rising address (R43). -/
abbrev Memory := List Host.Cell

/-- The framebuffer: 32 rows of 64 pixels; bit x of row y is pixel (x, y), that is fb[y*64 + x]
(R41). -/
abbrev Framebuffer := Vector (BitVec 64) 32

structure State where
  /-- V0..VF (R30). -/
  v : Vector Byte 16
  /-- The address register I (R35). -/
  iReg : Word
  /-- The program counter (R34). -/
  pc : Word
  /-- stack[0..15], the saved return addresses (R36). -/
  stack : Vector Word 16
  /-- SP, how many entries are saved, 0..16 (R36). -/
  sp : Fin 17
  /-- DT, the delay timer (R38). -/
  dt : Byte
  /-- ST, the sound timer (R38). -/
  st : Byte
  /-- key[0..15], down or up (R39). -/
  key : Vector Bool 16
  /-- fb[0..2047] (R41). -/
  fb : Framebuffer
  /-- kw_active, whether the key-wait latch is set (R40). -/
  kwActive : Bool
  /-- kw_reg, the register the awaited key goes to (R40). -/
  kwReg : Reg
  /-- The fault latch (R42). -/
  fault : FaultLatch
  /-- mem[0..4095] (R43). -/
  mem : Memory
  /-- The parameters of R9; no step changes them. The model's own field. -/
  params : Params
  /-- How many random bytes have been drawn. The model's own field. -/
  draws : Nat
  /-- The operations the host has pending, next first. The model's own field. -/
  host : List HostOp
  /-- The tick in progress: how many cycles of its batch have run, the `i` of R341. The model's own
  field. -/
  batch : Option Nat
  /-- The host's copy of the last image `load` accepted (R388). Host state, the model's own field. -/
  lastImage : Option (List Byte)
  /-- The outputs so far, oldest first (R152). The model's own field. -/
  out : List Output
  deriving DecidableEq, Repr

/-- The state `reset()` leaves (R46, R380), under the given parameters, with the model's own fields
at their start. Nothing of memory is listed: an unlisted address reads as the reset contents. -/
def State.init (p : Params) : State where
  v := Vector.replicate 16 0
  iReg := 0x0200
  pc := 0x0200
  stack := Vector.replicate 16 0
  sp := 0
  dt := 0
  st := 0
  key := Vector.replicate 16 false
  fb := Vector.replicate 32 0
  kwActive := false
  kwReg := 0
  fault := { kind := .none, info := 0 }
  mem := []
  params := p
  draws := 0
  host := []
  batch := none
  lastImage := none
  out := []

/-- The machine right after reset (R46), with the default parameters (R9). -/
def State.reset : State := State.init Params.default

end Sys2Proof.Machine
end

