-- ==== Sys2Proof/Machine/Ops.lean ====
section
/-! DEFINITION. The named operations over the state: registers, pc, memory, the call stack, the
framebuffer's pixels, the timers, the key events, the fault latch, the outputs, load and reset. -/

namespace Sys2Proof.Machine

/-- The outcome of a step of this machine. -/
abbrev StepOutcome := Host.Outcome State Fault Refusal

/-- Go on from a next state; a stop stays a stop. -/
def onNext (o : StepOutcome) (f : State → StepOutcome) : StepOutcome :=
  match o with
  | .next t => f t
  | .fault r => .fault r
  | .refused r => .refused r

/-! ### Registers and pc -/

/-- Read general register x (R13). -/
def State.readV (s : State) (x : Reg) : Byte := s.v[x.val]

/-- Write general register x (R13). -/
def State.setV (s : State) (x : Reg) (b : Byte) : State := { s with v := s.v.set x.val b }

/-- The pre-advance of every instruction, and the further advance of a taken skip (R143, R178). -/
def State.advance (s : State) : State := { s with pc := s.pc + 2 }

/-- pc <- target (R13). -/
def State.setPc (s : State) (target : Word) : State := { s with pc := target }

/-- I <- a (R13). -/
def State.setI (s : State) (a : Word) : State := { s with iReg := a }

/-! ### Faults and outputs -/

/-- The core is faulted when fault.kind is not NONE (R42). -/
def State.faulted (s : State) : Bool := s.fault.kind != .none

/-- `raise Fatal(kind, info)` applied to the state at the start of the cycle: the latch is set and
nothing else changes, the pre-advance included (R322, R150). -/
def State.raise (s : State) (kind : FaultKind) (info : Nat) : State :=
  { s with fault := { kind := kind, info := info } }

/-- Append one entry to the output trace (R152). -/
def State.emit (s : State) (e : Output) : State := { s with out := s.out ++ [e] }

/-- The result of a cycle, read from the states before and after it (R148). -/
def cycleResult (before after : State) : OpResult :=
  if before.faulted then .halted before.fault.kind before.fault.info
  else if after.faulted then .fatal after.fault.kind after.fault.info
  else .ok

/-- The conditions of R320, latched or not. -/
inductive Condition where
  | none | romTooLarge | fetchOutOfBounds | unknownOpcode | stackOverflow | stackUnderflow
  | addressOutOfBounds | keyIndexOutOfRange
  deriving DecidableEq, Repr

/-- The numeric code the spec assigns to each condition (R320). -/
def Condition.code : Condition → Nat
  | .none => 0
  | .romTooLarge => 1
  | .fetchOutOfBounds => 2
  | .unknownOpcode => 3
  | .stackOverflow => 4
  | .stackUnderflow => 5
  | .addressOutOfBounds => 6
  | .keyIndexOutOfRange => 7

/-- The condition a fault.kind stands for (R42, R320). -/
def FaultKind.condition : FaultKind → Condition
  | .none => .none
  | .fetchOutOfBounds => .fetchOutOfBounds
  | .stackOverflow => .stackOverflow
  | .stackUnderflow => .stackUnderflow
  | .addressOutOfBounds => .addressOutOfBounds
  | .keyIndexOutOfRange => .keyIndexOutOfRange

/-- fault.kind's numeric code: 0, 2, 4..7 (R48). -/
def FaultKind.code (k : FaultKind) : Nat := k.condition.code

/-! ### Memory -/

/-- What an address that is not listed reads as: the reset contents, the fontset at 0x050..0x09F
(R381) and zero elsewhere (R46). -/
def resetByte (p : Params) (a : Nat) : Byte :=
  if h : fontBase ≤ a ∧ a < fontBase + 80 then
    (p.font[(a - fontBase) / glyphBytes]'(by simp only [fontBase, glyphBytes] at *; omega))[(a - fontBase) % glyphBytes]'(by
      simp only [fontBase, glyphBytes] at *; omega)
  else 0

/-- Read a memory: the listed byte, or the reset contents. Cells rise by address, so the search ends
at the first cell past a. -/
def Memory.read (p : Params) (m : Memory) (a : Nat) : Byte :=
  match m with
  | [] => resetByte p a
  | (b, w) :: rest => if a < b then resetByte p a else if a = b then w else Memory.read p rest a

/-- Write a memory, keeping its canonical form: a byte equal to the reset contents is not listed. -/
def Memory.write (p : Params) (m : Memory) (a : Nat) (v : Byte) : Memory :=
  match m with
  | [] => if v = resetByte p a then [] else [(a, v)]
  | (b, w) :: rest =>
    if a < b then (if v = resetByte p a then (b, w) :: rest else (a, v) :: (b, w) :: rest)
    else if a = b then (if v = resetByte p a then rest else (a, v) :: rest)
    else (b, w) :: Memory.write p rest a v

/-- The canonical form from an address on: addresses strictly rising, below 4096, at least lo, and no
cell equal to the reset contents. -/
def Memory.wfFrom (p : Params) (lo : Nat) : Memory → Bool
  | [] => true
  | (a, v) :: rest =>
    decide (lo ≤ a) && decide (a < memSize) && (v != resetByte p a) && Memory.wfFrom p (a + 1) rest

/-- The canonical form of a memory. -/
def Memory.wf (p : Params) (m : Memory) : Bool := Memory.wfFrom p 0 m

/-- A valid memory address (R71). -/
abbrev validAddr (a : Nat) : Prop := a < memSize

/-- MemRead(a, 1) (R74). Callers check `validAddr a` first. -/
def State.memRead (s : State) (a : Nat) : Byte := Memory.read s.params s.mem a

/-- MemWrite(a, 1, v) (R75). An access to an invalid address is not performed (R82). -/
def State.memWrite (s : State) (a : Nat) (v : Byte) : State :=
  if validAddr a then { s with mem := Memory.write s.params s.mem a v } else s

/-- Write bytes at a, a + 1, ... in order (R79). -/
def State.storeBytes (s : State) (a : Nat) : List Byte → State
  | [] => s
  | b :: rest => (s.memWrite a b).storeBytes (a + 1) rest

/-- The n bytes at a, a + 1, ... (R79). -/
def State.loadBytes (s : State) (a n : Nat) : List Byte :=
  (List.range n).map fun k => s.memRead (a + k)

/-- pc + 1 lies in memory, so an instruction can be fetched (R142). -/
abbrev State.fetchable (s : State) : Prop := s.pc.toNat + 1 < memSize

/-- Fetch16(a) (R76). -/
def State.fetch16 (s : State) (a : Nat) : Word := wordOfBytes (s.memRead a) (s.memRead (a + 1))

/-- Place an instruction word at a, high byte first (R77). -/
def State.placeWord (s : State) (a : Nat) (w : Word) : State := s.storeBytes a (bytesOfWord w)

/-! ### Call stack -/

/-- Push a return address: write stack[SP], then SP + 1; none when SP is 16 (R37, R172). -/
def State.push (s : State) (w : Word) : Option State :=
  if h : s.sp.val < 16 then
    some { s with stack := s.stack.set s.sp.val w, sp := ⟨s.sp.val + 1, by omega⟩ }
  else none

/-- Pop a return address: SP - 1, then read stack[SP], the entry kept; none when SP is 0 (R37,
R170). -/
def State.pop (s : State) : Option (Word × State) :=
  if h : 0 < s.sp.val then
    some (s.stack[s.sp.val - 1]'(by omega), { s with sp := ⟨s.sp.val - 1, by omega⟩ })
  else none

/-! ### Framebuffer -/

/-- Pixel p = y*64 + x of a framebuffer (R41). -/
def Framebuffer.pixel (fb : Framebuffer) (p : Nat) : Bool :=
  (fb[p / 64 % 32]'(Nat.mod_lt _ (by decide))).getLsbD (p % 64)

/-- fb[p] <- fb[p] XOR 1 (R273). -/
def Framebuffer.toggle (fb : Framebuffer) (p : Nat) : Framebuffer :=
  fb.set (p / 64 % 32) ((fb[p / 64 % 32]'(Nat.mod_lt _ (by decide))) ^^^ BitVec.twoPow 64 (p % 64))
    (Nat.mod_lt _ (by decide))

/-- Every pixel off (R272). -/
def Framebuffer.clear : Framebuffer := Vector.replicate 32 0

/-! ### Timers -/

/-- One countdown step: down by one while above 0 (R342, R343). -/
def countdown (t : Byte) : Byte := if t = 0 then 0 else t - 1

/-- The timer step of a tick: DT, then PlayBeep if ST is exactly 1, then ST (R342, R343). -/
def State.timerStep (s : State) : State :=
  let s1 := { s with dt := countdown s.dt }
  let s2 := if s1.st = 1 then s1.emit .playBeep else s1
  { s2 with st := countdown s2.st }

/-! ### Key events -/

/-- The key of a host's key number; none outside 0..15 (R294). -/
def keyOf (k : Int) : Option (Fin 16) :=
  if h : 0 ≤ k ∧ k ≤ 15 then some ⟨k.toNat, by omega⟩ else none

/-- key[k] <- b (R39). -/
def State.setKey (s : State) (k : Fin 16) (b : Bool) : State := { s with key := s.key.set k.val b }

/-- The key number as a register value, zext_8(k) (R294). -/
def keyByte (k : Fin 16) : Byte := BitVec.ofNat 8 k.val

/-- `setKeyDown(k)` (R294): the key goes down, and a key-wait ends with its number in V[kw_reg]. -/
def State.keyDown (s : State) (k : Int) : State :=
  match keyOf k with
  | none => s
  | some j =>
    let s1 := s.setKey j true
    if s1.kwActive then { s1.setV s1.kwReg (keyByte j) with kwActive := false, pc := s1.pc + 2 }
    else s1

/-- `setKeyUp(k)` (R295). -/
def State.keyUp (s : State) (k : Int) : State :=
  match keyOf k with
  | none => s
  | some j => s.setKey j false

/-! ### Load and reset -/

/-- `load(bytes)` (R383, R384): on success the host keeps the image as the last accepted one
(R388). -/
def State.load (s : State) (bytes : List Byte) : State :=
  if bytes.length + progBase > memSize then s.emit (.returned .romTooLarge)
  else ({ s.storeBytes progBase bytes with lastImage := some bytes }).emit (.returned .ok)

/-- `reset()` (R380): every piece of core state at its reset value. The parameters, the draws taken,
the host's pending operations and last image and the output trace are not core state and stay. -/
def State.resetCore (s : State) : State :=
  { State.init s.params with draws := s.draws, host := s.host, lastImage := s.lastImage, out := s.out }

/-- What the host's restart does (R388): `reset()`, then `load` of the last accepted image when
RESTART_RELOADS is true. With no accepted image there is nothing to load (log entry 12). -/
def State.restartOps (s : State) : List HostOp :=
  match s.params.restartReloads, s.lastImage with
  | true, some bytes => [.reset, .load bytes]
  | _, _ => [.reset]

/-- The control surface's load-ROM operation: `reset()` then `load(bytes)` (R385). -/
def loadRomOps (bytes : List Byte) : List HostOp := [.reset, .load bytes]

/-! ### What the host reads -/

/-- The render interface: the whole framebuffer, row by row (R351). -/
def State.render (s : State) : Framebuffer := s.fb

/-- The debugger's snapshot (R353). -/
structure Snapshot where
  /-- mem[0..4095]. -/
  mem : List Byte
  /-- V0..VF. -/
  v : Vector Byte 16
  /-- I. -/
  iReg : Word
  /-- pc. -/
  pc : Word
  /-- stack[0..SP-1]. -/
  stack : List Word
  /-- The instruction word at pc, absent when it is not in memory. -/
  word : Option Word
  deriving DecidableEq, Repr

/-- Take a snapshot: it changes nothing (R353). -/
def State.snapshot (s : State) : Snapshot where
  mem := s.loadBytes 0 memSize
  v := s.v
  iReg := s.iReg
  pc := s.pc
  stack := s.stack.toList.take s.sp.val
  word := if s.fetchable then some (s.fetch16 s.pc.toNat) else none

end Sys2Proof.Machine
end

