-- ==== Sys2Proof/Machine/Operands.lean ====
section
/-! DEFINITION. The operand forms: zero-extended addresses, the range check of an access through I,
the key index, glyph addresses, BCD digits and register blocks. -/

namespace Sys2Proof.Machine

/-- zext_16(nnn) (R103). -/
def zext16 (nnn : Addr12) : Word := nnn.setWidth 16

/-- The target of Bnnn: zext_16(nnn + V0), at most 0x10FE and not masked (R177). -/
def offsetTarget (nnn : Addr12) (v0 : Byte) : Word := BitVec.ofNat 16 (nnn.toNat + v0.toNat)

/-- checkRange(base, count) for count ≥ 1: the address to record when the access would leave memory
(R240). Effective addresses are not reduced first (R81). -/
def rangeFault (base : Word) (count : Nat) : Option Nat :=
  if base.toNat + count - 1 ≥ memSize then some (max base.toNat memSize) else none

/-- keyIndex(v): the key a register value selects, none where it raises KEY_INDEX_OUT_OF_RANGE
(R290). -/
def keyIndex (p : Params) (v : Byte) : Option (Fin 16) :=
  if h : v.toNat ≤ 0xF then some ⟨v.toNat, by omega⟩
  else match p.keyIndexPolicy with
    | .fault => none
    | .mask4 => some (Fin.ofNat 16 (v &&& 0x0F).toNat)

/-- The address of the glyph of a register's low nibble: 0x050 + (v AND 0x0F) * 5 (R243). -/
def glyphAddr (v : Byte) : Word := BitVec.ofNat 16 (fontBase + (v &&& 0x0F).toNat * glyphBytes)

/-- The hundreds, tens and units digits of a byte (R244). -/
def bcdDigits (v : Byte) : List Byte :=
  [BitVec.ofNat 8 (v.toNat / 100), BitVec.ofNat 8 (v.toNat / 10 % 10), BitVec.ofNat 8 (v.toNat % 10)]

/-- V0..Vx, the block Fx55 stores (R245). -/
def State.regBlock (s : State) (x : Reg) : List Byte := s.v.toList.take (x.val + 1)

/-- V[i] <- mem[base + i] for i in 0..x, the block Fx65 loads (R246). -/
def State.loadBlock (s : State) (base : Nat) (x : Reg) : State :=
  { s with v := Vector.ofFn fun i => if i.val ≤ x.val then s.memRead (base + i.val) else s.v[i.val] }

/-- I <- (I + x + 1) mod 65536, the advance of Fx55 and Fx65 (R245, R246). -/
def State.advanceI (s : State) (x : Reg) : State :=
  { s with iReg := s.iReg + BitVec.ofNat 16 (x.val + 1) }

end Sys2Proof.Machine
end

