-- ==== Sys2Proof/Machine/Flags.lean ====
section
/-! DEFINITION. The flag laws of the ALU (spec/42_register_alu.md R200) and the write order of result
and flag (R201). VF is the only flag (R45). -/

namespace Sys2Proof.Machine

/-- A flag as the byte VF holds, 1 or 0. -/
def flagByte (b : Bool) : Byte := if b then 1 else 0

/-- Carry out of an addition: 1 iff the unbounded sum exceeds 255 (R200, R208). -/
def carryFlag (a b : Byte) : Byte := flagByte (decide (a.toNat + b.toNat > 255))

/-- "No borrow" of a - b: 1 iff a ≥ b (R200, R209, R211). -/
def noBorrowFlag (a b : Byte) : Byte := flagByte (decide (a.toNat ≥ b.toNat))

/-- The bit a right shift moves out: bit 0 (R200, R210). -/
def shiftOutLow (a : Byte) : Byte := BitVec.ofNat 8 (a.toNat % 2)

/-- The bit a left shift moves out: bit 7 (R200, R212). -/
def shiftOutHigh (a : Byte) : Byte := BitVec.ofNat 8 (a.toNat / 128)

/-- (a + b) mod 256 (R200). -/
def addBytes (a b : Byte) : Byte := BitVec.ofNat 8 ((a.toNat + b.toNat) % 256)

/-- (a - b) mod 256, the non-negative remainder (R200). -/
def subBytes (a b : Byte) : Byte := BitVec.ofInt 8 (((a.toNat : Int) - b.toNat) % 256)

/-- a / 2 (R200). -/
def shiftRight1 (a : Byte) : Byte := BitVec.ofNat 8 (a.toNat / 2)

/-- (a * 2) mod 256 (R200). -/
def shiftLeft1 (a : Byte) : Byte := BitVec.ofNat 8 (a.toNat * 2 % 256)

/-- writeback(r, f): the result to V[x] and the flag to VF, in the order VF_FLAG_LAST sets (R201). -/
def State.writeback (s : State) (x : Reg) (r f : Byte) : State :=
  if s.params.vfFlagLast then (s.setV x r).setV Reg.vf f else (s.setV Reg.vf f).setV x r

end Sys2Proof.Machine
end

