-- ==== Sys2Proof/Machine/Alu.lean ====
section
/-! DEFINITION. Register loads, the 8-bit ALU and the random byte (spec/42_register_alu.md). Operands
are read before anything is written (R15, R201). -/

namespace Sys2Proof.Machine

/-- 6xkk LD Vx, kk (R202). -/
def execLdImm (x : Reg) (kk : Byte) (s : State) : StepOutcome := .next (s.advance.setV x kk)

/-- 7xkk ADD Vx, kk (R203): no flag. -/
def execAddImm (x : Reg) (kk : Byte) (s : State) : StepOutcome :=
  .next (s.advance.setV x (addBytes (s.readV x) kk))

/-- 8xy0 LD Vx, Vy (R204). -/
def execLdReg (x y : Reg) (s : State) : StepOutcome := .next (s.advance.setV x (s.readV y))

/-- 8xy1 OR Vx, Vy (R205). -/
def execOrReg (x y : Reg) (s : State) : StepOutcome :=
  .next (s.advance.setV x (s.readV x ||| s.readV y))

/-- 8xy2 AND Vx, Vy (R206). -/
def execAndReg (x y : Reg) (s : State) : StepOutcome :=
  .next (s.advance.setV x (s.readV x &&& s.readV y))

/-- 8xy3 XOR Vx, Vy (R207). -/
def execXorReg (x y : Reg) (s : State) : StepOutcome :=
  .next (s.advance.setV x (s.readV x ^^^ s.readV y))

/-- 8xy4 ADD Vx, Vy (R208). -/
def execAddReg (x y : Reg) (s : State) : StepOutcome :=
  .next (s.advance.writeback x (addBytes (s.readV x) (s.readV y)) (carryFlag (s.readV x) (s.readV y)))

/-- 8xy5 SUB Vx, Vy (R209). -/
def execSub (x y : Reg) (s : State) : StepOutcome :=
  .next (s.advance.writeback x (subBytes (s.readV x) (s.readV y)) (noBorrowFlag (s.readV x) (s.readV y)))

/-- 8xy6 SHR Vx (R210): y is not read. -/
def execShr (x : Reg) (s : State) : StepOutcome :=
  .next (s.advance.writeback x (shiftRight1 (s.readV x)) (shiftOutLow (s.readV x)))

/-- 8xy7 SUBN Vx, Vy (R211). -/
def execSubn (x y : Reg) (s : State) : StepOutcome :=
  .next (s.advance.writeback x (subBytes (s.readV y) (s.readV x)) (noBorrowFlag (s.readV y) (s.readV x)))

/-- 8xyE SHL Vx (R212): y is not read. -/
def execShl (x : Reg) (s : State) : StepOutcome :=
  .next (s.advance.writeback x (shiftLeft1 (s.readV x)) (shiftOutHigh (s.readV x)))

/-- draw8(): the next random byte, a free value, and the state that has taken it (R13, R213). -/
def State.drawByte (s : State) : Byte × State :=
  (Config.draw8 s.draws, { s with draws := s.draws + 1 })

/-- Cxkk RND Vx, kk (R213). -/
def execRnd (x : Reg) (kk : Byte) (s : State) : StepOutcome :=
  let (r, t) := s.drawByte
  .next (t.advance.setV x (r &&& kk))

end Sys2Proof.Machine
end

