-- ==== Sys2Proof/Machine/Display.lean ====
section
/-! DEFINITION. The framebuffer: clear and XOR sprite draw (spec/44_display.md). -/

namespace Sys2Proof.Machine

/-- A drawing in progress: the framebuffer and the collision so far (R273). -/
structure Canvas where
  /-- The pixels. -/
  fb : Framebuffer
  /-- Whether some pixel has gone from 1 to 0. -/
  collide : Bool
  deriving DecidableEq, Repr

/-- The pixel of sprite bit (row, col) of a sprite at (vx, vy), wrapped (R270). -/
def spritePixel (vx vy row col : Nat) : Nat := (vy + row) % 32 * 64 + (vx + col) % 64

/-- PRESUMED (log entry 6): column col takes bit 7 - col of the row's byte (R271, from general
knowledge). -/
def spriteBit (b : Byte) (col : Nat) : Bool := b.getLsbD (7 - col)

/-- Draw one sprite bit: a set bit flips its pixel, and collides where the pixel was on (R273). -/
def Canvas.drawBit (c : Canvas) (p : Nat) (bit : Bool) : Canvas :=
  if bit then { fb := c.fb.toggle p, collide := c.collide || c.fb.pixel p } else c

/-- Draw the eight columns of one row (R273). -/
def Canvas.drawRow (c : Canvas) (vx vy row : Nat) (b : Byte) : Canvas :=
  (List.range 8).foldl (fun d col => d.drawBit (spritePixel vx vy row col) (spriteBit b col)) c

/-- Draw the rows of a sprite, the first of them at row `row` (R273). -/
def Canvas.drawRows (c : Canvas) (vx vy row : Nat) : List Byte → Canvas
  | [] => c
  | b :: rest => (c.drawRow vx vy row b).drawRows vx vy (row + 1) rest

/-- 00E0 CLS (R272). -/
def execCls (s : State) : StepOutcome := .next { s.advance with fb := Framebuffer.clear }

/-- The address to record when drawing n rows would leave memory; n = 0 reads nothing and checks
nothing (R273). -/
def drawFault (base : Word) (n : Nat) : Option Nat := if n = 0 then none else rangeFault base n

/-- Dxyn DRW (R273): Vx and Vy are read before VF is written. -/
def execDrw (x y : Reg) (n : Fin 16) (s : State) : StepOutcome :=
  match drawFault s.iReg n.val with
  | some a => .next (s.raise .addressOutOfBounds a)
  | none =>
    let c := Canvas.drawRows { fb := s.fb, collide := false } (s.readV x).toNat (s.readV y).toNat 0
      (s.loadBytes s.iReg.toNat n.val)
    .next (({ s.advance with fb := c.fb }).setV Reg.vf (flagByte c.collide))

end Sys2Proof.Machine
end

