-- ==== Sys2Proof/Machine/IndexMemory.lean ====
section
/-! DEFINITION. The I register and memory transfers (spec/43_index_and_memory.md). The range check
comes before any write (R240). -/

namespace Sys2Proof.Machine

/-- Annn LD I, nnn (R241). -/
def execLdI (nnn : Addr12) (s : State) : StepOutcome := .next (s.advance.setI (zext16 nnn))

/-- Fx1E ADD I, Vx (R242): modulo 2^16, no flag. -/
def execAddI (x : Reg) (s : State) : StepOutcome :=
  .next (s.advance.setI (s.iReg + (s.readV x).setWidth 16))

/-- Fx29 LD F, Vx (R243). -/
def execLdF (x : Reg) (s : State) : StepOutcome := .next (s.advance.setI (glyphAddr (s.readV x)))

/-- Fx33 LD B, Vx (R244): three digits at I, I + 1, I + 2. -/
def execLdB (x : Reg) (s : State) : StepOutcome :=
  match rangeFault s.iReg 3 with
  | some a => .next (s.raise .addressOutOfBounds a)
  | none => .next (s.advance.storeBytes s.iReg.toNat (bcdDigits (s.readV x)))

/-- Fx55 LD [I], Vx (R245): V0..Vx to memory at I, then I advances by x + 1. -/
def execLdMemStore (x : Reg) (s : State) : StepOutcome :=
  match rangeFault s.iReg (x.val + 1) with
  | some a => .next (s.raise .addressOutOfBounds a)
  | none => .next ((s.advance.storeBytes s.iReg.toNat (s.regBlock x)).advanceI x)

/-- Fx65 LD Vx, [I] (R246): V0..Vx from memory at I, then I advances by x + 1. -/
def execLdMemLoad (x : Reg) (s : State) : StepOutcome :=
  match rangeFault s.iReg (x.val + 1) with
  | some a => .next (s.raise .addressOutOfBounds a)
  | none => .next ((s.advance.loadBlock s.iReg.toNat x).advanceI x)

end Sys2Proof.Machine
end

