-- ==== Sys2Proof/Machine/ControlFlow.lean ====
section
/-! DEFINITION. Control transfer and the call stack (spec/41_control_flow.md). A meaning is given the
state at the start of the cycle, pc = a, and does the pre-advance of R143 itself, so that a fatal
condition leaves that state but for the latch (R150). -/

namespace Sys2Proof.Machine

/-- The pre-advance, and a further 2 when the skip is taken (R143, R178). -/
def State.skipIf (s : State) (taken : Bool) : State :=
  if taken then s.advance.advance else s.advance

/-- 00EE RET (R170). -/
def execRet (s : State) : StepOutcome :=
  match s.advance.pop with
  | none => .next (s.raise .stackUnderflow s.pc.toNat)
  | some (target, t) => .next (t.setPc target)

/-- 1nnn JP (R171). -/
def execJp (nnn : Addr12) (s : State) : StepOutcome := .next (s.advance.setPc (zext16 nnn))

/-- 2nnn CALL (R172): the return address is the pre-advanced pc. -/
def execCall (nnn : Addr12) (s : State) : StepOutcome :=
  match s.advance.push s.advance.pc with
  | none => .next (s.raise .stackOverflow s.pc.toNat)
  | some t => .next (t.setPc (zext16 nnn))

/-- 3xkk SE Vx, kk (R173). -/
def execSeImm (x : Reg) (kk : Byte) (s : State) : StepOutcome :=
  .next (s.skipIf (s.readV x == kk))

/-- 4xkk SNE Vx, kk (R174). -/
def execSneImm (x : Reg) (kk : Byte) (s : State) : StepOutcome :=
  .next (s.skipIf (s.readV x != kk))

/-- 5xy0 SE Vx, Vy (R175). -/
def execSeReg (x y : Reg) (s : State) : StepOutcome :=
  .next (s.skipIf (s.readV x == s.readV y))

/-- 9xy0 SNE Vx, Vy (R176). -/
def execSneReg (x y : Reg) (s : State) : StepOutcome :=
  .next (s.skipIf (s.readV x != s.readV y))

/-- Bnnn JP V0, nnn (R177): always V0. -/
def execJpV0 (nnn : Addr12) (s : State) : StepOutcome :=
  .next (s.advance.setPc (offsetTarget nnn (s.readV 0)))

end Sys2Proof.Machine
end

