-- ==== Sys2Proof/Machine/Keypad.lean ====
section
/-! DEFINITION. The keypad instructions (spec/45_keypad.md). The key events of the host are in
Machine/Ops.lean. -/

namespace Sys2Proof.Machine

/-- Ex9E SKP Vx (R291). -/
def execSkp (x : Reg) (s : State) : StepOutcome :=
  match keyIndex s.params (s.readV x) with
  | none => .next (s.raise .keyIndexOutOfRange (s.readV x).toNat)
  | some k => .next (s.skipIf (s.key[k.val] == true))

/-- ExA1 SKNP Vx (R292). -/
def execSknp (x : Reg) (s : State) : StepOutcome :=
  match keyIndex s.params (s.readV x) with
  | none => .next (s.raise .keyIndexOutOfRange (s.readV x).toNat)
  | some k => .next (s.skipIf (s.key[k.val] == false))

/-- Fx0A LD Vx, K (R293): the latch is set and pc rolls back to the instruction. -/
def execLdK (x : Reg) (s : State) : StepOutcome :=
  .next { s.advance with kwActive := true, kwReg := x, pc := s.advance.pc - 2 }

end Sys2Proof.Machine
end

