-- ==== Sys2Proof/Machine/Timers.lean ====
section
/-! DEFINITION. The timer instructions (spec/46_timer_instructions.md). The countdown is
`State.timerStep` in Machine/Ops.lean. -/

namespace Sys2Proof.Machine

/-- Fx07 LD Vx, DT (R310). -/
def execLdVxDt (x : Reg) (s : State) : StepOutcome := .next (s.advance.setV x s.dt)

/-- Fx15 LD DT, Vx (R311). -/
def execLdDt (x : Reg) (s : State) : StepOutcome := .next { s.advance with dt := s.readV x }

/-- Fx18 LD ST, Vx (R312): no event. -/
def execLdSt (x : Reg) (s : State) : StepOutcome := .next { s.advance with st := s.readV x }

end Sys2Proof.Machine
end

