-- ==== Sys2Proof/Machine/Cycle.lean ====
section
/-! DEFINITION. The fetch-decode-execute cycle (spec/40_cycle_and_dispatch.md), the tick's core steps
(spec/60_exceptions.md R341) and the host's operations (R356), each one atomic step. -/

namespace Sys2Proof.Machine

/-- UNKNOWN(w) at pc: the event and the pre-advance, nothing else (R147). -/
def execUnknown (w : Word) (s : State) : StepOutcome :=
  .next (s.advance.emit (.unknownOpcode w s.pc))

/-- `cycle()` (R140): a faulted core does nothing (R141), a fetch past memory is fatal (R142), and
otherwise the word at pc is decoded and executed. -/
def cycle (s : State) : StepOutcome :=
  if s.faulted then .next s
  else if s.fetchable then
    match decodeWord s.params.strictDecode (s.fetch16 s.pc.toNat) with
    | .instr i => exec i s
    | .unknown w => execUnknown w s
  else .next (s.raise .fetchOutOfBounds s.pc.toNat)

/-- One core step of a tick that has run i cycles (R341): a cycle while the batch is not full and no
key-wait is on, else the timer step, which ends the tick. A fatal cycle ends the tick at once.
DESIGN CHOICE (log entry 23): the test of the batch and the latch is one atomic step with the cycle or
timer step it chooses, so a key event comes before both or after both. -/
def tickStep (i : Nat) (s : State) : StepOutcome :=
  if i < s.params.cyclesPerTick ∧ s.kwActive = false then
    onNext (cycle s) fun t =>
      if t.faulted then .next (({ t with batch := none }).emit (.returned (cycleResult s t)))
      else .next { t with batch := some (i + 1) }
  else .next (({ s.timerStep with batch := none }).emit (.returned .ok))

/-- `cycle()` or `step()` invoked by the host: the same cycle, its result returned (R148, R345). -/
def hostCycle (s : State) : StepOutcome :=
  onNext (cycle s) fun t => .next (t.emit (.returned (cycleResult s t)))

/-- One operation of the host on a core with no tick in progress (R356). -/
def hostOp (op : HostOp) (s : State) : StepOutcome :=
  match op with
  | .reset => .next s.resetCore
  | .load bytes => .next (s.load bytes)
  | .cycle => hostCycle s
  | .step => hostCycle s
  | .tick =>
    if s.faulted then .next (s.emit (.returned (.halted s.fault.kind s.fault.info)))
    else .next { s with batch := some 0 }
  | .setKeyDown k => .next (s.keyDown k)
  | .setKeyUp k => .next (s.keyUp k)
  | .restart => .next { s with host := s.restartOps ++ s.host }
  | .pass => .next s

/-- One atomic step of the core and its host (log entry 1). With no tick in progress the next pending
operation runs, and with none pending the core runs one cycle. During a tick a key event at the
head of the pending operations comes first (R86); `pass` lets the tick go on; every other operation
waits until the tick has ended (R8). -/
def advanceMachine (s : State) : StepOutcome :=
  match s.batch, s.host with
  | none, [] => cycle s
  | none, op :: rest => hostOp op { s with host := rest }
  | some _, .setKeyDown k :: rest => .next (({ s with host := rest }).keyDown k)
  | some _, .setKeyUp k :: rest => .next (({ s with host := rest }).keyUp k)
  | some i, .pass :: rest => tickStep i { s with host := rest }
  | some i, _ => tickStep i s

/-- Where withFetchWord places its word: at pc if an instruction can be fetched there, else at the
program base. -/
def State.fetchPlace (s : State) : Word := if s.fetchable then s.pc else BitVec.ofNat 16 progBase

/-- The state whose next step fetches and runs the word: no tick in progress, no host operation
pending, no fault latched, the word at pc. -/
def State.withWordAtPc (s : State) (w : Word) : State :=
  ({ s with host := [], batch := none, fault := { kind := .none, info := 0 }, pc := s.fetchPlace }).placeWord
    s.fetchPlace.toNat w

end Sys2Proof.Machine
end

