-- ==== Sys2Proof/Machine/Step.lean ====
section
/-! DEFINITION. The step of the machine, and how an instruction is placed where it fetches next. -/

namespace Sys2Proof.Machine

/-- One atomic step: a host operation, a core step of the tick in progress, or one `cycle()`. -/
def step (s : State) : Host.Outcome State Fault Refusal := advanceMachine s

/-- The state with the table's instruction word placed where the next step fetches. -/
def State.withFetchWord (s : State) (nbits w : Nat) : State := s.withWordAtPc (tableWord nbits w)

end Sys2Proof.Machine
end

