-- ==== Sys2Proof/Safety.lean ====
section
/-! DEFINITION. The terms claims use: observation points (spec/60_exceptions.md R358), invariants of
the state, and who writes what (R32, R79, R275). -/

namespace Sys2Proof.Machine

/-- The instruction at pc: what the decoder reads from the word there (R145). -/
def State.decodedAtPc (s : State) : Decoded := decodeWord s.params.strictDecode (s.fetch16 s.pc.toNat)

/-- (a) FAULTED: a bad end, never a normal one (R358). -/
abbrev State.atFaulted (s : State) : Prop := s.faulted = true

/-- (b) IDLE: a jump to itself at pc, no wait, no fault (R358). -/
abbrev State.atIdle (s : State) : Prop :=
  s.faulted = false ∧ s.kwActive = false ∧ s.fetchable ∧ s.fetch16 s.pc.toNat = 0x1000 + s.pc ∧
    s.pc.toNat ≤ 0x0FFF

/-- (c) WAITING: the key-wait latch is set (R358). -/
abbrev State.atWaiting (s : State) : Prop := s.kwActive = true

/-- A run is safe where it has latched no fatal condition. -/
abbrev State.safe (s : State) : Prop := s.faulted = false

/-- The memory of the state is in canonical form. -/
abbrev State.memOk (s : State) : Prop := Memory.wf s.params s.mem = true

/-- pc and every saved return address are in the bounds of R144. -/
abbrev State.pcNear (s : State) : Prop :=
  s.pc.toNat ≤ 0x10FE ∧ ∀ j : Fin 16, s.stack[j.val].toNat ≤ 0x1000

/-- The bounds of R144, but that a core which is not waiting may have pc two higher, where a key press
has ended a key-wait that a `load` broke into (log entry 16). -/
abbrev State.pcOk (s : State) : Prop :=
  s.pc.toNat ≤ 0x1100 ∧ (s.kwActive = true → s.pc.toNat ≤ 0x10FE) ∧
    ∀ j : Fin 16, s.stack[j.val].toNat ≤ 0x1000

/-- While the key-wait latch is set the core is not faulted and pc holds the address of the Fx0A that
set it (R297). -/
abbrev State.waitOk (s : State) : Prop :=
  s.kwActive = true → s.faulted = false ∧ s.fetchable ∧ s.decodedAtPc = .instr (.ldK s.kwReg)

/-- An operation of the host that may replace the instruction at pc. -/
def HostOp.loads : HostOp → Bool
  | .load _ => true
  | .restart => true
  | _ => false

/-- No pending operation of the host replaces the program. -/
abbrev State.noLoadPending (s : State) : Prop := ∀ op ∈ s.host, op.loads = false

/-- The general registers an instruction may write (R32). -/
def writesReg (i : Instr) (r : Reg) : Bool :=
  match i with
  | .ldImm x _ | .addImm x _ | .rnd x _ => r == x
  | .ldReg x _ | .orReg x _ | .andReg x _ | .xorReg x _ => r == x
  | .addReg x _ | .sub x _ | .shr x _ | .subn x _ | .shl x _ => r == x || r == Reg.vf
  | .drw _ _ _ => r == Reg.vf
  | .ldVxDt x => r == x
  | .ldMemLoad x => decide (r ≤ x)
  | .cls | .ret | .jp _ | .call _ | .seImm _ _ | .sneImm _ _ | .seReg _ _ | .sneReg _ _ => false
  | .ldI _ | .jpV0 _ | .skp _ | .sknp _ | .ldK _ | .ldDt _ | .ldSt _ | .addI _ | .ldF _ => false
  | .ldB _ | .ldMemStore _ => false

/-- The instructions that write memory (R79). -/
def writesMem : Instr → Bool
  | .ldB _ | .ldMemStore _ => true
  | _ => false

/-- The instructions that write the framebuffer (R275). -/
def writesFb : Instr → Bool
  | .cls | .drw _ _ _ => true
  | _ => false

/-- The instructions that reach the call stack (R36). -/
def usesStack : Instr → Bool
  | .call _ | .ret => true
  | _ => false

/-- The pixel q is lit by a set bit of the sprite whose rows are given, drawn at (vx, vy) (R270,
R271). -/
def spriteLit (vx vy : Nat) (rows : List Byte) (q : Nat) : Bool :=
  (List.range rows.length).any fun r =>
    (List.range 8).any fun col => spritePixel vx vy r col == q && spriteBit (rows.getD r 0) col

end Sys2Proof.Machine
end

