-- ==== Sys2Proof/Certificates/Slice0/Obligations.lean ====
section
/-! DEFINITION. The statements for the provers. Each docstring says which rule of spec/ it formalises;
where a statement rests on a choice the spec marks as its own ([decision], [derived], [from general
knowledge]) or on a log entry of the model, it says so. Parameters are fields of the state that no
step changes, so "for every state" is also "for every setting of the parameters". -/

open Sys2Proof Sys2Proof.Machine

/-! ### Reset -/

/-- Reset (10_state.md section 12, 70_reset_and_hazards.md section 1): every piece of state at the
value of the table, under any parameters. That kw_reg, fault.kind and fault.info have these values is
the spec's own decision D2/D35, and that FONT stands at 0x050 is its parameter D11. -/
def Obligations.ResetStateValues : Prop :=
  State.reset = State.init Params.default ∧
  ∀ p : Params,
    (∀ x : Reg, (State.init p).readV x = 0) ∧ (State.init p).iReg = 0x0200 ∧ (State.init p).pc = 0x0200 ∧
    (∀ j : Fin 16, (State.init p).stack[j.val] = 0) ∧ (State.init p).sp = 0 ∧
    (State.init p).dt = 0 ∧ (State.init p).st = 0 ∧ (∀ k : Fin 16, (State.init p).key[k.val] = false) ∧
    (∀ q, (State.init p).fb.pixel q = false) ∧
    (State.init p).kwActive = false ∧ (State.init p).kwReg = 0 ∧
    (State.init p).fault = { kind := .none, info := 0 } ∧
    (∀ a < 0x050, (State.init p).memRead a = 0) ∧
    (∀ g : Fin 16, ∀ r : Fin 5, (State.init p).memRead (0x050 + 5 * g.val + r.val) = p.font[g.val][r.val]) ∧
    (∀ a, 0x0A0 ≤ a → a < 4096 → (State.init p).memRead a = 0)

/-- The host's `reset()` (60_exceptions.md section 2, 70_reset_and_hazards.md section 1; decision D2)
takes any state, a faulted one too, to the reset state in one step. What stays is no core state: the
parameters, the draws taken, the host's pending operations, its image and the output trace (log
entries 1, 3 and 4). -/
def Obligations.HostResetLeavesResetState : Prop :=
  ∀ (s : State) (rest : List HostOp), s.batch = none → s.host = .reset :: rest →
    step s = .next { State.init s.params with
      draws := s.draws, host := rest, lastImage := s.lastImage, out := s.out }

/-- The invariants stated below hold of the reset state, under any parameters. -/
def Obligations.ResetMeetsInvariants : Prop :=
  ∀ p : Params, (State.init p).memOk ∧ (State.init p).pcNear ∧ (State.init p).pcOk ∧
    (State.init p).waitOk ∧ (State.init p).noLoadPending

/-! ### The cycle -/

/-- A step runs the decoded instruction (40_cycle_and_dispatch.md sections 1 and 2): with no tick in
progress and no host operation pending (log entry 1), on a core that is not faulted and can fetch,
the step is exec of the instruction decoded from the word at pc; nothing stands around it, since a
meaning does the pre-advance itself (log entry 17). -/
def Obligations.StepRunsDecodedInstruction : Prop :=
  ∀ (s : State) (i : Instr), s.batch = none → s.host = [] → s.faulted = false → s.fetchable →
    s.decodedAtPc = .instr i → step s = exec i s

/-- R76: the instruction word is big-endian. -/
def Obligations.FetchIsBigEndian : Prop :=
  ∀ (s : State) (a : Nat), a + 1 < 4096 →
    (s.fetch16 a).toNat = (s.memRead a).toNat * 256 + (s.memRead (a + 1)).toNat

/-- R112: an UNKNOWN word is no trap: its cycle emits UnknownOpcode with the word and its address, pc
keeps its pre-advance and nothing else changes. -/
def Obligations.UnknownWordOnlyReports : Prop :=
  ∀ (s : State) (w : Word), s.batch = none → s.host = [] → s.faulted = false → s.fetchable →
    s.decodedAtPc = .unknown w →
    w = s.fetch16 s.pc.toNat ∧
    step s = .next { s with pc := s.pc + 2, out := s.out ++ [.unknownOpcode w s.pc] }

/-- A fetch that would leave memory latches FETCH_OUT_OF_BOUNDS with pc and changes nothing else
(40_cycle_and_dispatch.md section 1; that the latch is how it shows is decision D2). -/
def Obligations.FetchPastMemoryLatches : Prop :=
  ∀ s : State, s.batch = none → s.host = [] → s.faulted = false → 4096 ≤ s.pc.toNat + 1 →
    step s = .next { s with fault := { kind := .fetchOutOfBounds, info := s.pc.toNat } }

/-- On a faulted core a cycle, alone or invoked as `cycle()`, `step()` or `tick()`, changes nothing
and the host gets Halted with the latched fault (60_exceptions.md section 2; decision D2). -/
def Obligations.FaultedCoreStaysPut : Prop :=
  ∀ s : State, s.faulted = true → s.batch = none →
    (s.host = [] → step s = .next s) ∧
    (∀ (op : HostOp) (rest : List HostOp), op = .cycle ∨ op = .step ∨ op = .tick → s.host = op :: rest →
      step s = .next { s with
        host := rest, out := s.out ++ [.returned (.halted s.fault.kind s.fault.info)] })

/-- Every instruction, in every state, answers a next state, and a fatal condition is precise: either
the latch is as before, or the latch is all that changed (40_cycle_and_dispatch.md section 3,
60_exceptions.md section 1; decision D2). -/
def Obligations.FatalConditionsArePrecise : Prop :=
  ∀ (i : Instr) (s : State), ∃ t, exec i s = .next t ∧ (t.fault = s.fault ∨ t = { s with fault := t.fault })

/-! ### Encoding -/

/-- Words written out from the spec's encodings decode to what they stand for (30_encoding.md section
3; 95_test_vectors.md), by the table's numbering of bits too. -/
def Obligations.WordsDecodeAsSpecified : Prop :=
  decodeWord true 0x00E0 = .instr .cls ∧ decodeWord true 0x00EE = .instr .ret ∧
  decodeWord true 0x12A0 = .instr (.jp 0x2A0) ∧ decodeWord true 0x3312 = .instr (.seImm 3 0x12) ∧
  decodeWord true 0x8F14 = .instr (.addReg 15 1) ∧ decodeWord true 0xA250 = .instr (.ldI 0x250) ∧
  decodeWord true 0xD012 = .instr (.drw 0 1 2) ∧ decodeWord true 0xE29E = .instr (.skp 2) ∧
  decodeWord true 0xF30A = .instr (.ldK 3) ∧ decodeWord true 0xF265 = .instr (.ldMemLoad 2) ∧
  decodeWord true 0x01E0 = .unknown 0x01E0 ∧ decodeWord false 0x01E0 = .instr .cls ∧
  decodeTableWord 16 0xF265 = some (.ldMemLoad 2)

/-- Decoding the word of an instruction, or its two bytes, gives the instruction back, for every
instruction at every value of its fields, in both settings of STRICT_DECODE (30_encoding.md sections
1 to 3). -/
def Obligations.DecodeEncodeRoundTrip : Prop :=
  ∀ (strict : Bool) (i : Instr), i.wellFormed = true ∧ decodeWord strict (encode i) = .instr i ∧
    decodeBytes strict (bytesOfWord (encode i)) = .inr (i, [])

/-- Under STRICT_DECODE every word that decodes to an instruction is that instruction's word: no bit is
dropped and no two words mean one instruction (30_encoding.md section 3). -/
def Obligations.EncodeDecodeRoundTrip : Prop :=
  ∀ (w : Word) (i : Instr), decodeWord true w = .instr i → encode i = w

/-- The UNKNOWN words of the strict decoder are exactly those listed (30_encoding.md section 4, which
derives the list from the decode map). -/
def Obligations.UnknownWordsExactly : Prop :=
  ∀ w u : Word, decodeWord true w = .unknown u ↔
    u = w ∧
    ((fieldOp w = 0x0 ∧ w ≠ 0x00E0 ∧ w ≠ 0x00EE) ∨
     ((fieldOp w = 0x5 ∨ fieldOp w = 0x9) ∧ fieldN w ≠ 0) ∨
     (fieldOp w = 0x8 ∧ fieldN w ∈ ([0x8, 0x9, 0xA, 0xB, 0xC, 0xD, 0xF] : List (Fin 16))) ∨
     (fieldOp w = 0xE ∧ fieldKk w ∉ ([0x9E, 0xA1] : List Byte)) ∨
     (fieldOp w = 0xF ∧
       fieldKk w ∉ ([0x07, 0x0A, 0x15, 0x18, 0x1E, 0x29, 0x33, 0x55, 0x65] : List Byte)))

/-- The two decoders agree on every word outside DECODE_AMBIGUOUS; on a word inside it the strict one
answers UNKNOWN and the lax one the instruction of the dispatch sentence (30_encoding.md section 4;
decision D7). -/
def Obligations.DecodersDifferOnlyWhereNamed : Prop :=
  ∀ w : Word,
    (decodeAmbiguous w = false → decodeWord false w = decodeWord true w) ∧
    (decodeAmbiguous w = true → decodeWord true w = .unknown w ∧
      decodeWord false w = .instr (
        if fieldOp w = 0x5 then .seReg (fieldX w) (fieldY w)
        else if fieldOp w = 0x9 then .sneReg (fieldX w) (fieldY w)
        else if fieldKk w = 0xE0 then .cls else .ret))

/-! ### Control transfer -/

/-- R171: 1nnn sets pc to nnn and changes nothing else. -/
def Obligations.JumpSetsPc : Prop :=
  ∀ (nnn : Addr12) (s : State), exec (.jp nnn) s = .next { s with pc := nnn.setWidth 16 }

/-- Bnnn jumps to nnn + V0, not masked to 12 bits, at most 0x10FE (41_control_flow.md section 1;
decision D4). -/
def Obligations.JumpWithOffsetAddsV0 : Prop :=
  ∀ (nnn : Addr12) (s : State), ∃ target : Word,
    exec (.jpV0 nnn) s = .next { s with pc := target } ∧
    target.toNat = nnn.toNat + (s.readV 0).toNat ∧ target.toNat ≤ 0x10FE

/-- R173, R174: 3xkk skips the next instruction when Vx = kk, 4xkk when Vx ≠ kk; nothing but pc
changes. -/
def Obligations.SkipOnImmediate : Prop :=
  ∀ (x : Reg) (kk : Byte) (s : State),
    exec (.seImm x kk) s = .next { s with pc := s.pc + (if s.readV x = kk then 4 else 2) } ∧
    exec (.sneImm x kk) s = .next { s with pc := s.pc + (if s.readV x = kk then 2 else 4) }

/-- R175, R176: 5xy0 skips when Vx = Vy, 9xy0 when they differ; nothing but pc changes. -/
def Obligations.SkipOnRegisters : Prop :=
  ∀ (x y : Reg) (s : State),
    exec (.seReg x y) s = .next { s with pc := s.pc + (if s.readV x = s.readV y then 4 else 2) } ∧
    exec (.sneReg x y) s = .next { s with pc := s.pc + (if s.readV x = s.readV y then 2 else 4) }

/-- 2nnn with room on the stack pushes the address after it and jumps; with SP = 16 it latches
STACK_OVERFLOW with its own address and changes nothing else (41_control_flow.md section 1; that
overflow is fatal is decision D3). -/
def Obligations.CallPushesReturnAddress : Prop :=
  ∀ (nnn : Addr12) (s : State),
    (∀ h : s.sp.val < 16, exec (.call nnn) s = .next { s with
      pc := nnn.setWidth 16, stack := s.stack.set s.sp.val (s.pc + 2), sp := ⟨s.sp.val + 1, by omega⟩ }) ∧
    (s.sp.val = 16 →
      exec (.call nnn) s = .next { s with fault := { kind := .stackOverflow, info := s.pc.toNat } })

/-- 00EE with an entry on the stack takes the newest one as pc and leaves the entry in place; with
SP = 0 it latches STACK_UNDERFLOW with its own address and changes nothing else (41_control_flow.md
section 1; that underflow is fatal is decision D3, that the entry stays is D24). -/
def Obligations.ReturnPopsAddress : Prop :=
  ∀ s : State,
    (∀ h : 0 < s.sp.val, exec .ret s = .next { s with
      pc := s.stack[s.sp.val - 1], sp := ⟨s.sp.val - 1, by omega⟩ }) ∧
    (s.sp.val = 0 →
      exec .ret s = .next { s with fault := { kind := .stackUnderflow, info := s.pc.toNat } })

/-- A return after a call, with any code between that leaves the stack and SP as the call left them,
goes to the instruction after the call and frees the entry (95_test_vectors.md S10;
41_control_flow.md section 1). -/
def Obligations.ReturnGoesBackAfterCall : Prop :=
  ∀ (nnn : Addr12) (s t u : State), s.sp.val < 16 → exec (.call nnn) s = .next t →
    u.stack = t.stack → u.sp = t.sp →
    exec .ret u = .next { u with pc := s.pc + 2, sp := s.sp }

/-! ### Registers and the ALU -/

/-- R202, R203: 6xkk loads kk, 7xkk adds kk modulo 256; pc advances by 2 and nothing else changes, VF
neither unless it is Vx. -/
def Obligations.LoadAndAddImmediate : Prop :=
  ∀ (x : Reg) (kk : Byte) (s : State),
    exec (.ldImm x kk) s = .next { s with v := s.v.set x.val kk, pc := s.pc + 2 } ∧
    exec (.addImm x kk) s = .next { s with v := s.v.set x.val (s.readV x + kk), pc := s.pc + 2 }

/-- R204 to R207: 8xy0 copies, 8xy1, 8xy2, 8xy3 are the bitwise OR, AND, XOR; pc advances by 2 and
nothing else changes, VF neither unless it is Vx. -/
def Obligations.CopyAndBitwiseLogic : Prop :=
  ∀ (x y : Reg) (s : State),
    exec (.ldReg x y) s = .next { s with v := s.v.set x.val (s.readV y), pc := s.pc + 2 } ∧
    exec (.orReg x y) s = .next { s with v := s.v.set x.val (s.readV x ||| s.readV y), pc := s.pc + 2 } ∧
    exec (.andReg x y) s = .next { s with v := s.v.set x.val (s.readV x &&& s.readV y), pc := s.pc + 2 } ∧
    exec (.xorReg x y) s = .next { s with v := s.v.set x.val (s.readV x ^^^ s.readV y), pc := s.pc + 2 }

/-- 8xy4 writes the sum modulo 256 to Vx and the carry to VF (42_register_alu.md section 2). Where Vx is VF itself,
FlagRegisterAsDestination says what survives. -/
def Obligations.AddWithCarryOut : Prop :=
  ∀ (x y : Reg) (s : State), x ≠ 15 → ∃ t, exec (.addReg x y) s = .next t ∧
    t.readV x = s.readV x + s.readV y ∧
    t.readV 15 = (if 255 < (s.readV x).toNat + (s.readV y).toNat then 1 else 0) ∧
    (∀ r, r ≠ x → r ≠ 15 → t.readV r = s.readV r) ∧
    { t with v := s.v } = { s with pc := s.pc + 2 }

/-- 8xy5 writes Vx - Vy and 8xy7 Vy - Vx, modulo 256, to Vx, and "no borrow" to VF (42_register_alu.md
section 2). Where
Vx is VF itself, FlagRegisterAsDestination says what survives. -/
def Obligations.SubtractBothWays : Prop :=
  ∀ (x y : Reg) (s : State), x ≠ 15 →
    (∃ t, exec (.sub x y) s = .next t ∧ t.readV x = s.readV x - s.readV y ∧
      t.readV 15 = (if s.readV y ≤ s.readV x then 1 else 0) ∧
      (∀ r, r ≠ x → r ≠ 15 → t.readV r = s.readV r) ∧ { t with v := s.v } = { s with pc := s.pc + 2 }) ∧
    (∃ t, exec (.subn x y) s = .next t ∧ t.readV x = s.readV y - s.readV x ∧
      t.readV 15 = (if s.readV x ≤ s.readV y then 1 else 0) ∧
      (∀ r, r ≠ x → r ≠ 15 → t.readV r = s.readV r) ∧ { t with v := s.v } = { s with pc := s.pc + 2 })

/-- 8xy6 and 8xyE shift Vx by one, right and left, Vy not read, and put the bit shifted out into VF
(42_register_alu.md section 2). Where Vx is VF itself, FlagRegisterAsDestination says what survives. -/
def Obligations.ShiftBothWays : Prop :=
  ∀ (x y : Reg) (s : State), x ≠ 15 →
    (∃ t, exec (.shr x y) s = .next t ∧ t.readV x = s.readV x >>> 1 ∧
      t.readV 15 = (if (s.readV x).getLsbD 0 then 1 else 0) ∧
      (∀ r, r ≠ x → r ≠ 15 → t.readV r = s.readV r) ∧ { t with v := s.v } = { s with pc := s.pc + 2 }) ∧
    (∃ t, exec (.shl x y) s = .next t ∧ t.readV x = s.readV x <<< 1 ∧
      t.readV 15 = (if (s.readV x).getLsbD 7 then 1 else 0) ∧
      (∀ r, r ≠ x → r ≠ 15 → t.readV r = s.readV r) ∧ { t with v := s.v } = { s with pc := s.pc + 2 })

/-- With VF as the destination of a flag instruction, VF ends holding the flag when VF_FLAG_LAST is
true and the result when it is false; no other register changes (42_register_alu.md section 1; the
parameter and its default are decision D8). The flag, and not the result, is what the default
leaves. -/
def Obligations.FlagRegisterAsDestination : Prop :=
  ∀ (y : Reg) (s : State), ∃ add sub subn shr shl : Byte,
    exec (.addReg 15 y) s = .next { s with pc := s.pc + 2, v := s.v.set 15 add } ∧
    exec (.sub 15 y) s = .next { s with pc := s.pc + 2, v := s.v.set 15 sub } ∧
    exec (.subn 15 y) s = .next { s with pc := s.pc + 2, v := s.v.set 15 subn } ∧
    exec (.shr 15 y) s = .next { s with pc := s.pc + 2, v := s.v.set 15 shr } ∧
    exec (.shl 15 y) s = .next { s with pc := s.pc + 2, v := s.v.set 15 shl } ∧
    (s.params.vfFlagLast = true →
      add = (if 255 < (s.readV 15).toNat + (s.readV y).toNat then 1 else 0) ∧
      sub = (if s.readV y ≤ s.readV 15 then 1 else 0) ∧
      subn = (if s.readV 15 ≤ s.readV y then 1 else 0) ∧
      shr = (if (s.readV 15).getLsbD 0 then 1 else 0) ∧
      shl = (if (s.readV 15).getLsbD 7 then 1 else 0)) ∧
    (s.params.vfFlagLast = false →
      add = s.readV 15 + s.readV y ∧ sub = s.readV 15 - s.readV y ∧ subn = s.readV y - s.readV 15 ∧
      shr = s.readV 15 >>> 1 ∧ shl = s.readV 15 <<< 1)

/-- Cxkk writes some byte under the mask kk to Vx, so no bit outside kk is set, and changes nothing else
but the count of draws (42_register_alu.md section 2; that the byte is a free value is decision D17 and
log entry 3: the statement says nothing of which byte it is). -/
def Obligations.RandomByteUnderMask : Prop :=
  ∀ (x : Reg) (kk : Byte) (s : State), ∃ r : Byte,
    exec (.rnd x kk) s = .next { s with v := s.v.set x.val (r &&& kk), pc := s.pc + 2, draws := s.draws + 1 } ∧
    (r &&& kk) &&& ~~~kk = 0

/-! ### I and memory -/

/-- R241, R243: Annn sets I to nnn; Fx29 sets I to the glyph of Vx's low nibble; nothing else but pc
changes. -/
def Obligations.LoadIndexAndGlyph : Prop :=
  (∀ (nnn : Addr12) (s : State),
    exec (.ldI nnn) s = .next { s with iReg := nnn.setWidth 16, pc := s.pc + 2 }) ∧
  (∀ (x : Reg) (s : State), ∃ a : Word,
    exec (.ldF x) s = .next { s with iReg := a, pc := s.pc + 2 } ∧
    a.toNat = 0x050 + (s.readV x).toNat % 16 * 5)

/-- Fx1E adds Vx to I modulo 2^16; VF and everything else but pc stay (43_index_and_memory.md section
2; the 16-bit wrap is decision D5). -/
def Obligations.AddToIndexWrapsAt16Bits : Prop :=
  ∀ (x : Reg) (s : State), ∃ a : Word,
    exec (.addI x) s = .next { s with iReg := a, pc := s.pc + 2 } ∧
    a.toNat = (s.iReg.toNat + (s.readV x).toNat) % 65536

/-- R244: Fx33 with I + 2 in memory writes the three decimal digits of Vx at I, I + 1, I + 2, changes no
other byte, leaves I, and changes nothing else but pc; otherwise it latches AddressOutOfBounds. Memory
is in canonical form, which MemoryStaysCanonical keeps. -/
def Obligations.StoreBcdDigits : Prop :=
  ∀ (x : Reg) (s : State), s.memOk →
    (s.iReg.toNat + 2 < 4096 → ∃ t, exec (.ldB x) s = .next t ∧
      (t.memRead s.iReg.toNat).toNat = (s.readV x).toNat / 100 ∧
      (t.memRead (s.iReg.toNat + 1)).toNat = (s.readV x).toNat / 10 % 10 ∧
      (t.memRead (s.iReg.toNat + 2)).toNat = (s.readV x).toNat % 10 ∧
      (∀ a, a < s.iReg.toNat ∨ s.iReg.toNat + 2 < a → t.memRead a = s.memRead a) ∧
      { t with mem := s.mem } = { s with pc := s.pc + 2 }) ∧
    (4096 ≤ s.iReg.toNat + 2 → ∃ t, exec (.ldB x) s = .next t ∧ t.fault.kind = .addressOutOfBounds)

/-- Fx55 with its block in memory stores V0..Vx at I, I + 1, ..., changes no other byte, advances I by
x + 1, and changes nothing else but pc (43_index_and_memory.md section 2; decision D5). Memory is in
canonical form, which MemoryStaysCanonical keeps. -/
def Obligations.StoreRegisterBlock : Prop :=
  ∀ (x : Reg) (s : State), s.memOk → s.iReg.toNat + x.val < 4096 → ∃ t,
    exec (.ldMemStore x) s = .next t ∧
    (∀ i : Reg, i ≤ x → t.memRead (s.iReg.toNat + i.val) = s.readV i) ∧
    (∀ a, a < s.iReg.toNat ∨ s.iReg.toNat + x.val < a → t.memRead a = s.memRead a) ∧
    t.iReg.toNat = s.iReg.toNat + x.val + 1 ∧
    { t with mem := s.mem, iReg := s.iReg } = { s with pc := s.pc + 2 }

/-- Fx65 with its block in memory loads V0..Vx from I, I + 1, ..., leaves the other registers, advances
I by x + 1, and changes nothing else but pc (43_index_and_memory.md section 2; decision D5). -/
def Obligations.LoadRegisterBlock : Prop :=
  ∀ (x : Reg) (s : State), s.iReg.toNat + x.val < 4096 → ∃ t,
    exec (.ldMemLoad x) s = .next t ∧
    (∀ i : Reg, t.readV i = if i ≤ x then s.memRead (s.iReg.toNat + i.val) else s.readV i) ∧
    t.iReg.toNat = s.iReg.toNat + x.val + 1 ∧
    { t with v := s.v, iReg := s.iReg } = { s with pc := s.pc + 2 }

/-- What Fx55 stored, Fx65 loads back: with I set back and the registers overwritten in between, V0..Vx
hold again what they held (43_index_and_memory.md section 2). -/
def Obligations.LoadAfterStoreRestores : Prop :=
  ∀ (x : Reg) (s t u : State), s.memOk → s.iReg.toNat + x.val < 4096 → exec (.ldMemStore x) s = .next t →
    u.mem = t.mem → u.params = t.params → u.iReg = s.iReg →
    ∃ w, exec (.ldMemLoad x) u = .next w ∧ ∀ i : Reg, i ≤ x → w.readV i = s.readV i

/-- An access through I that would leave memory latches ADDRESS_OUT_OF_BOUNDS with the lowest invalid
address and changes nothing else (43_index_and_memory.md section 1; 44_display.md section 2; decision
D4). -/
def Obligations.OutOfRangeAccessLatches : Prop :=
  ∀ (i : Instr) (n : Nat) (s : State),
    ((∃ x, i = .ldB x ∧ n = 3) ∨ (∃ x : Reg, (i = .ldMemStore x ∨ i = .ldMemLoad x) ∧ n = x.val + 1) ∨
      (∃ (x y : Reg) (m : Fin 16), i = .drw x y m ∧ n = m.val ∧ 0 < n)) →
    4096 ≤ s.iReg.toNat + n - 1 →
    exec i s = .next { s with fault := { kind := .addressOutOfBounds, info := max s.iReg.toNat 4096 } }

/-! ### Display -/

/-- R272: 00E0 turns every pixel off and changes nothing else but pc. -/
def Obligations.ClearScreenTurnsPixelsOff : Prop :=
  ∀ s : State, ∃ fb : Framebuffer, exec .cls s = .next { s with fb := fb, pc := s.pc + 2 } ∧
    ∀ q < 2048, fb.pixel q = false

/-- Dxyn whose rows are in memory (n = 0 reads none) flips exactly the pixels the sprite lights at
(Vx, Vy), wrapped, sets VF to 1 if some pixel goes from on to off and to 0 otherwise, and changes nothing else
but pc (44_display.md sections 1 and 2; decisions D9 and D33; that bit 7 is the leftmost pixel is the
spec's general knowledge, D10, log entry 6). -/
def Obligations.DrawFlipsLitPixels : Prop :=
  ∀ (x y : Reg) (n : Fin 16) (s : State), n.val = 0 ∨ s.iReg.toNat + n.val - 1 < 4096 →
    ∃ (fb : Framebuffer) (f : Byte),
      exec (.drw x y n) s = .next { s with fb := fb, v := s.v.set 15 f, pc := s.pc + 2 } ∧
      (∀ q < 2048, fb.pixel q = true ↔ ¬(s.fb.pixel q = true ↔
        ∃ r c, r < n.val ∧ c < 8 ∧ (s.memRead (s.iReg.toNat + r)).getLsbD (7 - c) = true ∧
          q = ((s.readV y).toNat + r) % 32 * 64 + ((s.readV x).toNat + c) % 64)) ∧
      ((f = 1 ∧ ∃ q < 2048, s.fb.pixel q = true ∧ fb.pixel q = false) ∨
        (f = 0 ∧ ∀ q < 2048, s.fb.pixel q = true → fb.pixel q = true))

/-- Drawing one sprite twice at one place, with nothing but pc and VF changed in between, restores the
framebuffer (95_test_vectors.md section 3, P-d; 44_display.md section 3). VF is no coordinate, since
the first draw overwrites it. -/
def Obligations.DrawingTwiceRestores : Prop :=
  ∀ (x y : Reg) (n : Fin 16) (s t u : State), x ≠ 15 → y ≠ 15 →
    n.val = 0 ∨ s.iReg.toNat + n.val - 1 < 4096 →
    exec (.drw x y n) s = .next t → exec (.drw x y n) t = .next u → u.fb = s.fb

/-- Within one Dxyn no pixel is touched twice (44_display.md section 3, derived there): distinct bits of
a sprite hit distinct pixels of the framebuffer, drawing at two distinct pixels commutes, the collision
included, and so after a Dxyn whose rows are in memory (n = 0 reads none) the pixel of each sprite bit
has changed exactly where that bit is set. -/
def Obligations.SpriteBitsHitDistinctPixels : Prop :=
  (∀ vx vy r c r' c' : Nat, r < 15 → r' < 15 → c < 8 → c' < 8 → spritePixel vx vy r c < 2048 ∧
    (spritePixel vx vy r c = spritePixel vx vy r' c' → r = r' ∧ c = c')) ∧
  (∀ (k : Canvas) (p q : Nat) (a b : Bool), p < 2048 → q < 2048 → p ≠ q →
    (k.drawBit p a).drawBit q b = (k.drawBit q b).drawBit p a) ∧
  (∀ (x y : Reg) (n : Fin 16) (s : State), n.val = 0 ∨ s.iReg.toNat + n.val - 1 < 4096 →
    ∃ t, exec (.drw x y n) s = .next t ∧
      ∀ r c, r < n.val → c < 8 →
        t.fb.pixel (spritePixel (s.readV x).toNat (s.readV y).toNat r c) =
          (s.fb.pixel (spritePixel (s.readV x).toNat (s.readV y).toNat r c) !=
            spriteBit (s.memRead (s.iReg.toNat + r)) c))

/-! ### Keypad -/

/-- Ex9E skips when key Vx is down, ExA1 when it is up; nothing but pc changes. Above 0xF the policy
decides: Fault latches KEY_INDEX_OUT_OF_RANGE with Vx and changes nothing else, Mask4 takes the low
nibble (45_keypad.md sections 1 and 2; decision D12). -/
def Obligations.SkipOnKey : Prop :=
  ∀ (x : Reg) (s : State) (k : Fin 16),
    ((s.readV x).toNat ≤ 0xF ∨ s.params.keyIndexPolicy = .mask4 → k.val = (s.readV x).toNat % 16 →
      exec (.skp x) s = .next { s with pc := s.pc + (if s.key[k.val] = true then 4 else 2) } ∧
      exec (.sknp x) s = .next { s with pc := s.pc + (if s.key[k.val] = true then 2 else 4) }) ∧
    (0xF < (s.readV x).toNat → s.params.keyIndexPolicy = .fault →
      exec (.skp x) s = .next { s with fault := { kind := .keyIndexOutOfRange, info := (s.readV x).toNat } } ∧
      exec (.sknp x) s = .next { s with fault := { kind := .keyIndexOutOfRange, info := (s.readV x).toNat } })

/-- Fx0A sets the key-wait latch for Vx and leaves pc at itself; nothing else changes, Vx neither
(45_keypad.md section 2; decision D13). -/
def Obligations.KeyWaitSetsLatch : Prop :=
  ∀ (x : Reg) (s : State), exec (.ldK x) s = .next { s with kwActive := true, kwReg := x }

/-- A key press (45_keypad.md section 3; decisions D16, D34, D36), in any state and also between two
core steps of a tick: the key goes down, and a key-wait ends with the key's number in V[kw_reg] and pc
past the Fx0A; a press outside 0..15 is ignored. -/
def Obligations.KeyPressEndsWait : Prop :=
  ∀ (s : State) (k : Int) (rest : List HostOp), s.host = .setKeyDown k :: rest →
    (∀ j : Fin 16, k = j.val → s.kwActive = true → step s = .next { s with
      host := rest, key := s.key.set j.val true, v := s.v.set s.kwReg.val (BitVec.ofNat 8 j.val),
      kwActive := false, pc := s.pc + 2 }) ∧
    (∀ j : Fin 16, k = j.val → s.kwActive = false →
      step s = .next { s with host := rest, key := s.key.set j.val true }) ∧
    (k < 0 ∨ 15 < k → step s = .next { s with host := rest })

/-- R295: a key release puts the key up and touches nothing else, the key-wait latch neither; one
outside 0..15 is ignored. -/
def Obligations.KeyReleaseOnlyClearsKey : Prop :=
  ∀ (s : State) (k : Int) (rest : List HostOp), s.host = .setKeyUp k :: rest →
    (∀ j : Fin 16, k = j.val → step s = .next { s with host := rest, key := s.key.set j.val false }) ∧
    (k < 0 ∨ 15 < k → step s = .next { s with host := rest })

/-! ### Timers and ticks -/

/-- R310, R311: Fx07 reads DT into Vx, Fx15 sets DT from Vx; nothing else but pc changes. -/
def Obligations.DelayTimerInstructions : Prop :=
  ∀ (x : Reg) (s : State),
    exec (.ldVxDt x) s = .next { s with v := s.v.set x.val s.dt, pc := s.pc + 2 } ∧
    exec (.ldDt x) s = .next { s with dt := s.readV x, pc := s.pc + 2 }

/-- Fx18 sets ST from Vx and emits nothing, even where it sets ST to 0 (46_timer_instructions.md;
decision D26). -/
def Obligations.SoundTimerWriteIsSilent : Prop :=
  ∀ (x : Reg) (s : State), exec (.ldSt x) s = .next { s with st := s.readV x, pc := s.pc + 2 }

/-- R344: a timer step takes each timer from v > 0 to v - 1 and leaves 0 as 0; ST's step from 1 emits
PlayBeep; a write by Fx15 or Fx18 moves the timer to the written value with no event. -/
def Obligations.TimersAreTwoStateMachines : Prop :=
  (∀ s : State,
    (s.dt = 0 → s.timerStep.dt = 0) ∧ (s.dt ≠ 0 → s.timerStep.dt.toNat = s.dt.toNat - 1) ∧
    (s.st = 0 → s.timerStep.st = 0) ∧ (s.st ≠ 0 → s.timerStep.st.toNat = s.st.toNat - 1) ∧
    (s.st = 1 → s.timerStep.out = s.out ++ [.playBeep]) ∧ (s.st ≠ 1 → s.timerStep.out = s.out) ∧
    { s.timerStep with dt := s.dt, st := s.st, out := s.out } = s) ∧
  (∀ (x : Reg) (s : State), ∃ t u, exec (.ldDt x) s = .next t ∧ t.dt = s.readV x ∧ t.out = s.out ∧
    exec (.ldSt x) s = .next u ∧ u.st = s.readV x ∧ u.out = s.out)

/-- The host invokes `cycle()`, `step()` or `tick()` on a core that is not faulted (60_exceptions.md
sections 2 and 5; decision D2): the first two run the cycle and return its result, the last starts a
batch (a batch as several steps of the model is log entry 1). -/
def Obligations.HostInvokesCycleStepOrTick : Prop :=
  ∀ (s : State) (op : HostOp) (rest : List HostOp), s.batch = none → s.faulted = false → s.host = op :: rest →
    (op = .cycle ∨ op = .step → ∃ u, cycle { s with host := rest } = .next u ∧
      step s = .next { u with out := u.out ++ [.returned
        (if u.faulted then .fatal u.fault.kind u.fault.info else .ok)] }) ∧
    (op = .tick → step s = .next { s with host := rest, batch := some 0 })

/-- The core steps of a tick (60_exceptions.md section 5; decisions D13 to D15): while the batch is not
full and no key-wait is on, a cycle runs and is counted, and a fatal cycle ends the tick at once, with no
timer step, and is returned; otherwise the timer step runs and ends the tick. Only a key event, or a
`pass`, at the head of the pending operations comes before; every other operation waits (log
entry 10). That the latch is tested in one step with what the test chooses is the model's choice (log
entry 23). -/
def Obligations.TickRunsBatchThenTimers : Prop :=
  ∀ (s : State) (i : Nat), s.batch = some i →
    (∀ op rest, s.host = op :: rest → (∀ k, op ≠ .setKeyDown k) ∧ (∀ k, op ≠ .setKeyUp k) ∧ op ≠ .pass) →
    (∀ u, i < s.params.cyclesPerTick → s.kwActive = false → cycle s = .next u → s.faulted = false →
      step s = if u.faulted then
          .next { u with batch := none, out := u.out ++ [.returned (.fatal u.fault.kind u.fault.info)] }
        else .next { u with batch := some (i + 1) }) ∧
    (s.params.cyclesPerTick ≤ i ∨ s.kwActive = true →
      step s = .next { s.timerStep with batch := none, out := s.timerStep.out ++ [.returned .ok] })

/-- While the key-wait latch is set a whole tick runs no cycle and the timers count (60_exceptions.md
section 5; decisions D13 and D14), and a single cycle runs the waiting Fx0A again and changes nothing
(40_cycle_and_dispatch.md section 3, derived there). -/
def Obligations.WaitingCoreOnlyCountsTimers : Prop :=
  ∀ s : State, s.atWaiting → s.waitOk → s.batch = none →
    (s.host = [.tick] → core.run 2 s = .next { s.timerStep with
      host := [], batch := none, out := s.timerStep.out ++ [.returned .ok] }) ∧
    (s.host = [] → step s = .next s)

/-- From an idle state a cycle changes nothing, and a whole tick changes nothing but the timers, with
PlayBeep where ST runs out (60_exceptions.md section 6; decision D32). -/
def Obligations.IdleTickOnlyCountsTimers : Prop :=
  ∀ s : State, s.atIdle → s.batch = none →
    cycle s = .next s ∧
    (s.host = [.tick] → core.run (s.params.cyclesPerTick + 2) s = .next { s.timerStep with
      host := [], batch := none, out := s.timerStep.out ++ [.returned .ok] })

/-! ### The host -/

/-- `load` copies an image that fits to 0x200 onward and changes no other byte and no other core state;
an image that does not fit is rejected with RomTooLarge and changes no state (70_reset_and_hazards.md
section 2). That the host's copy of the last accepted image is a field of the state, which a successful
`load` sets, is the model's choice (log entry 12; decision D19), and that the results go to a trace is
log entry 9. Memory is in canonical form, which MemoryStaysCanonical
keeps. -/
def Obligations.LoadCopiesImage : Prop :=
  ∀ (s : State) (bytes : List Byte) (rest : List HostOp), s.memOk → s.batch = none →
    s.host = .load bytes :: rest →
    (bytes.length ≤ 3584 → ∃ t, step s = .next t ∧
      (∀ k, (h : k < bytes.length) → t.memRead (0x200 + k) = bytes[k]) ∧
      (∀ a, a < 0x200 ∨ 0x200 + bytes.length ≤ a → t.memRead a = s.memRead a) ∧
      { t with mem := s.mem } = { s with
        host := rest, lastImage := some bytes, out := s.out ++ [.returned .ok] }) ∧
    (3584 < bytes.length →
      step s = .next { s with host := rest, out := s.out ++ [.returned .romTooLarge] })

/-- The host's restart (70_reset_and_hazards.md section 3; decision D19; log entry 12) is `reset()` and
then, when RESTART_RELOADS is true, `load` of the last accepted image. -/
def Obligations.RestartIsResetThenLoad : Prop :=
  ∀ (s : State) (rest : List HostOp), s.batch = none → s.host = .restart :: rest →
    (∀ bytes, s.params.restartReloads = true → s.lastImage = some bytes →
      step s = .next { s with host := .reset :: .load bytes :: rest }) ∧
    (s.params.restartReloads = false ∨ s.lastImage = none →
      step s = .next { s with host := .reset :: rest })

/-! ### Who writes what -/

/-- R32: a general register changes only by a reset, by the key press that ends a key-wait (kw_reg
alone), or by a cycle of an instruction that writes it. -/
def Obligations.OnlyNamedRegistersWritten : Prop :=
  ∀ (s t : State) (r : Reg), step s = .next t → t.readV r ≠ s.readV r →
    (s.batch = none ∧ ∃ rest, s.host = .reset :: rest) ∨
    (∃ (j : Fin 16) (rest : List HostOp), s.host = .setKeyDown (j.val : Int) :: rest ∧ s.kwActive = true ∧ r = s.kwReg) ∨
    (∃ i, s.decodedAtPc = .instr i ∧ writesReg i r = true)

/-- R151: a cycle changes DT and ST only by Fx15 and Fx18, emits at most an UnknownOpcode and so no
PlayBeep, and neither reads nor writes the counter of the tick's batch. Of the steps of the machine,
a reset apart, only the timer step that ends a tick counts the timers down. -/
def Obligations.CycleLeavesTimersAndBatch : Prop :=
  (∀ s t : State, cycle s = .next t →
    (t.dt ≠ s.dt → ∃ x, s.decodedAtPc = .instr (.ldDt x)) ∧
    (t.st ≠ s.st → ∃ x, s.decodedAtPc = .instr (.ldSt x)) ∧
    (t.out = s.out ∨ ∃ w a, t.out = s.out ++ [.unknownOpcode w a]) ∧
    (∀ b, cycle { s with batch := b } = .next { t with batch := b }) ∧ t.batch = s.batch) ∧
  (∀ s t : State, step s = .next t → t.dt ≠ s.dt ∨ t.st ≠ s.st →
    (s.batch = none ∧ ∃ rest, s.host = .reset :: rest) ∨
    (∃ x, s.decodedAtPc = .instr (.ldDt x) ∨ s.decodedAtPc = .instr (.ldSt x)) ∨
    (t.dt = s.timerStep.dt ∧ t.st = s.timerStep.st ∧ t.batch = none ∧
      ∃ i, s.batch = some i ∧ (s.params.cyclesPerTick ≤ i ∨ s.kwActive = true)))

/-- R275: the framebuffer changes only by 00E0, Dxyn and `reset()`; the render interface hands the host
the framebuffer as it is. -/
def Obligations.OnlyDrawingWritesPixels : Prop :=
  (∀ s t : State, step s = .next t → t.fb ≠ s.fb →
    (s.batch = none ∧ ∃ rest, s.host = .reset :: rest) ∨
    (∃ i, s.decodedAtPc = .instr i ∧ writesFb i = true)) ∧
  ∀ s : State, s.render = s.fb

/-- Memory changes only by Fx33, Fx55, `load` and `reset()`; the call stack and SP only by 2nnn, 00EE
and `reset()`; the keys only by key events and `reset()`; the parameters never (20_memory.md section 1;
10_state.md sections 4 and 6; log entry 4). -/
def Obligations.OnlyNamedWritersOfSpaces : Prop :=
  ∀ s t : State, step s = .next t →
    (t.mem ≠ s.mem → (s.batch = none ∧ ∃ rest, s.host = .reset :: rest) ∨ (s.batch = none ∧ ∃ bytes rest, s.host = .load bytes :: rest) ∨
      (∃ i, s.decodedAtPc = .instr i ∧ writesMem i = true)) ∧
    (t.stack ≠ s.stack ∨ t.sp ≠ s.sp → (s.batch = none ∧ ∃ rest, s.host = .reset :: rest) ∨
      (∃ i, s.decodedAtPc = .instr i ∧ usesStack i = true)) ∧
    (t.key ≠ s.key → (s.batch = none ∧ ∃ rest, s.host = .reset :: rest) ∨ (∃ k rest, s.host = .setKeyDown k :: rest) ∨
      (∃ k rest, s.host = .setKeyUp k :: rest)) ∧
    t.params = s.params

/-! ### Invariants -/

/-- Every step keeps memory in canonical form, every listed address below 4096 (10_state.md section 9;
the form is the model's own, log entry 7). -/
def Obligations.MemoryStaysCanonical : Prop :=
  ∀ s t : State, s.memOk → step s = .next t → t.memOk

/-- Every step keeps pc at or below 0x10FE and every saved return address at or below 0x1000
(40_cycle_and_dispatch.md section 1, derived there), from a state whose key-wait, if any, stands at its
Fx0A. Without that premise, where a `load` has broken into a key-wait (log entry 16), a step leaves pc
above 0x10FE only by the key press that ends the wait, or by leaving pc as it was, and pc is never
above 0x1100. -/
def Obligations.PcStaysBounded : Prop :=
  (∀ s t : State, s.waitOk → s.pcNear → step s = .next t → t.pcNear) ∧
  (∀ s t : State, s.pcOk → step s = .next t → t.pcOk ∧
    (t.pc.toNat ≤ 0x10FE ∨ t.pc = s.pc ∨
      ∃ (j : Fin 16) (rest : List HostOp),
        s.host = .setKeyDown (j.val : Int) :: rest ∧ s.kwActive = true ∧ t.pc = s.pc + 2))

/-- Every step keeps the property of the key-wait (45_keypad.md section 4, derived there): while the
latch is set the core is not faulted and pc is at an Fx0A with x = kw_reg. A `load` may replace that
instruction (log entry 16), so none is pending, which every step keeps too. -/
def Obligations.KeyWaitStaysAtItsInstruction : Prop :=
  ∀ s t : State, s.waitOk → s.noLoadPending → step s = .next t → t.waitOk ∧ t.noLoadPending
end

