-- ==== Sys2Proof/Laws/Draw.lean ====
section
/-! SUPPORT. What drawing does to the pixels and to the collision flag (spec/44_display.md R273, R274):
the set bits of a sprite flip distinct pixels. -/

namespace Sys2Proof.Machine

/-- Toggling pixel p flips p and leaves every other pixel. -/
theorem Framebuffer.pixel_toggle {fb : Framebuffer} {p q : Nat} (hp : p < 2048) (hq : q < 2048) :
    (fb.toggle p).pixel q = (fb.pixel q != decide (p = q)) := by
  unfold Framebuffer.toggle Framebuffer.pixel
  by_cases hr : p / 64 % 32 = q / 64 % 32
  · have h64 : p % 64 < 64 := Nat.mod_lt _ (by decide)
    have hiff : (p % 64 = q % 64) ↔ p = q := by omega
    simp only [Vector.getElem_set, hr, if_true, BitVec.getLsbD_xor, BitVec.getLsbD_twoPow, hiff, h64,
      decide_true, Bool.true_and]
  · have : p ≠ q := by rintro rfl; exact hr rfl
    simp [hr, this]

/-- Within one sprite distinct bits hit distinct pixels (R274). -/
theorem spritePixel_inj {vx vy r c r' c' : Nat} (hr : r < 32) (hr' : r' < 32) (hc : c < 8) (hc' : c' < 8)
    (h : spritePixel vx vy r c = spritePixel vx vy r' c') : r = r' ∧ c = c' := by
  unfold spritePixel at h; omega

/-- A sprite bit's pixel lies in the framebuffer (R83). -/
theorem spritePixel_lt (vx vy r c : Nat) : spritePixel vx vy r c < 2048 := by
  unfold spritePixel; omega

/-- The bits of a sprite with the pixels they hit, in drawing order. -/
def spriteBits (vx vy row : Nat) : List Byte → List (Nat × Bool)
  | [] => []
  | b :: rest =>
    (List.range 8).map (fun col => (spritePixel vx vy row col, spriteBit b col)) ++ spriteBits vx vy (row + 1) rest

/-- Drawing rows is drawing their bits one after another. -/
theorem Canvas.drawRows_eq (c : Canvas) (vx vy row : Nat) (bs : List Byte) :
    c.drawRows vx vy row bs = (spriteBits vx vy row bs).foldl (fun d pb => d.drawBit pb.1 pb.2) c := by
  induction bs generalizing c row with
  | nil => rfl
  | cons b rest ih => rw [Canvas.drawRows, ih, spriteBits, List.foldl_append, List.foldl_map]; rfl

/-- Which bits a sprite has. -/
theorem mem_spriteBits {vx vy row : Nat} {bs : List Byte} {x : Nat × Bool} :
    x ∈ spriteBits vx vy row bs ↔
      ∃ r < bs.length, ∃ col < 8, x = (spritePixel vx vy (row + r) col, spriteBit (bs.getD r 0) col) := by
  induction bs generalizing row with
  | nil => simp [spriteBits]
  | cons b rest ih =>
    simp only [spriteBits, List.mem_append, List.mem_map, List.mem_range, ih]
    constructor
    · rintro (⟨col, hc, rfl⟩ | ⟨r, hr, col, hc, rfl⟩)
      · exact ⟨0, by simp, col, hc, by simp⟩
      · exact ⟨r + 1, by simp; omega, col, hc, by simp [Nat.add_assoc, Nat.add_comm 1]⟩
    · rintro ⟨r, hr, col, hc, rfl⟩
      cases r with
      | zero => exact .inl ⟨col, hc, by simp⟩
      | succ r =>
        refine .inr ⟨r, by simp at hr; omega, col, hc, ?_⟩
        simp [Nat.add_assoc, Nat.add_comm 1]

/-- No two bits of a sprite of at most 32 rows hit one pixel (R274). -/
theorem spriteBits_distinct {vx vy row : Nat} {bs : List Byte} (h : row + bs.length ≤ 32) :
    (spriteBits vx vy row bs).Pairwise fun a b => a.1 ≠ b.1 := by
  induction bs generalizing row with
  | nil => simp [spriteBits]
  | cons b rest ih =>
    simp only [List.length_cons] at h
    rw [spriteBits, List.pairwise_append]
    refine ⟨?_, ih (by omega), ?_⟩
    · rw [List.pairwise_map]
      refine List.Pairwise.imp_of_mem ?_ (List.nodup_range (n := 8))
      intro c c' hc hc' hne heq
      simp only [List.mem_range] at hc hc'
      exact hne (spritePixel_inj (by omega) (by omega) hc hc' heq).2
    · intro x hx y hy heq
      obtain ⟨c, hc, rfl⟩ := List.mem_map.mp hx
      obtain ⟨r, hr, c', hc', rfl⟩ := mem_spriteBits.mp hy
      simp only [List.mem_range] at hc
      have := (spritePixel_inj (by omega) (by omega) hc hc' heq).1
      omega

/-- Drawing distinct bits flips exactly the pixels of the set bits, and collides exactly where one of
them was on before. -/
theorem drawBits_spec {l : List (Nat × Bool)} {c : Canvas} (hd : l.Pairwise fun a b => a.1 ≠ b.1)
    (hl : ∀ x ∈ l, x.1 < 2048) :
    (∀ q < 2048, (l.foldl (fun d pb => d.drawBit pb.1 pb.2) c).fb.pixel q =
      (c.fb.pixel q != l.any fun x => x.1 == q && x.2)) ∧
    (l.foldl (fun d pb => d.drawBit pb.1 pb.2) c).collide =
      (c.collide || l.any fun x => x.2 && c.fb.pixel x.1) := by
  induction l generalizing c with
  | nil => simp
  | cons x rest ih =>
    obtain ⟨p, b⟩ := x
    rw [List.pairwise_cons] at hd
    have hp : p < 2048 := hl (p, b) (by simp)
    have hrest := ih (c := c.drawBit p b) hd.2 fun y hy => hl y (by simp [hy])
    have hpix : ∀ q < 2048, (c.drawBit p b).fb.pixel q = (c.fb.pixel q != (decide (p = q) && b)) := by
      intro q hq
      unfold Canvas.drawBit
      cases b with
      | false => simp
      | true => simp [Framebuffer.pixel_toggle hp hq]
    simp only [List.foldl_cons, List.any_cons]
    refine ⟨fun q hq => ?_, ?_⟩
    · rw [hrest.1 q hq, hpix q hq]
      by_cases h : p = q
      · subst h
        have : (rest.any fun x => x.1 == p && x.2) = false := by
          rw [List.any_eq_false]
          intro y hy
          have := hd.1 y hy
          simp [Ne.symm this]
        simp [this]
      · simp [h]
    · rw [hrest.2]
      have hsame : (rest.any fun x => x.2 && (c.drawBit p b).fb.pixel x.1) =
          rest.any fun x => x.2 && c.fb.pixel x.1 := by
        rw [Bool.eq_iff_iff]
        simp only [List.any_eq_true]
        have heq : ∀ y ∈ rest, (c.drawBit p b).fb.pixel y.1 = c.fb.pixel y.1 := by
          intro y hy
          rw [hpix _ (hl y (by simp [hy]))]
          simp [hd.1 y hy]
        exact ⟨fun ⟨y, hy, h⟩ => ⟨y, hy, by rwa [heq y hy] at h⟩,
          fun ⟨y, hy, h⟩ => ⟨y, hy, by rwa [heq y hy]⟩⟩
      rw [hsame]
      unfold Canvas.drawBit
      cases b <;> simp [Bool.or_assoc]

/-- The bits of a sprite light exactly the pixels of `spriteLit`. -/
theorem spriteBits_any (vx vy : Nat) (bs : List Byte) (q : Nat) :
    ((spriteBits vx vy 0 bs).any fun x => x.1 == q && x.2) = spriteLit vx vy bs q := by
  rw [Bool.eq_iff_iff]
  simp only [spriteLit, List.any_eq_true, List.mem_range]
  constructor
  · rintro ⟨x, hx, h⟩
    obtain ⟨r, hr, col, hc, rfl⟩ := mem_spriteBits.mp hx
    exact ⟨r, hr, col, hc, by simpa using h⟩
  · rintro ⟨r, hr, col, hc, h⟩
    exact ⟨_, mem_spriteBits.mpr ⟨r, hr, col, hc, rfl⟩, by simpa using h⟩

/-- What drawing the rows of a sprite does (R273): each pixel flips where the sprite lights it, and the
collision is set where a lit pixel was on. -/
theorem Canvas.drawRows_spec {fb : Framebuffer} {vx vy : Nat} {bs : List Byte} (h : bs.length ≤ 32) :
    (∀ q < 2048, (Canvas.drawRows ⟨fb, false⟩ vx vy 0 bs).fb.pixel q =
      (fb.pixel q != spriteLit vx vy bs q)) ∧
    (Canvas.drawRows ⟨fb, false⟩ vx vy 0 bs).collide =
      (spriteBits vx vy 0 bs).any fun x => x.2 && fb.pixel x.1 := by
  rw [Canvas.drawRows_eq]
  have hd := drawBits_spec (c := ⟨fb, false⟩) (spriteBits_distinct (vx := vx) (vy := vy) (row := 0) (bs := bs) (by omega))
    (fun x hx => by obtain ⟨r, _, col, _, rfl⟩ := mem_spriteBits.mp hx; exact spritePixel_lt ..)
  refine ⟨fun q hq => ?_, by simpa using hd.2⟩
  rw [hd.1 q hq, spriteBits_any]

/-- Two framebuffers with the same pixels are the same. -/
theorem Framebuffer.ext_pixel {f g : Framebuffer} (h : ∀ q < 2048, f.pixel q = g.pixel q) : f = g := by
  apply Vector.ext
  intro y hy
  apply BitVec.eq_of_getLsbD_eq
  intro x hx
  have := h (y * 64 + x) (by omega)
  have h1 : (y * 64 + x) / 64 % 32 = y := by omega
  have h2 : (y * 64 + x) % 64 = x := by omega
  simpa [Framebuffer.pixel, h1, h2] using this

end Sys2Proof.Machine
end

