-- ==== Sys2Proof/Laws/State.lean ====
section
/-! SUPPORT. Beside State: one lemma per field per update, true by rfl, so that no proof unfolds a
record update. -/

namespace Sys2Proof.Machine

/-- Two states are equal when they agree on every field. -/
theorem State.ext_fields {s t : State} (h1 : s.v = t.v) (h2 : s.iReg = t.iReg) (h3 : s.pc = t.pc)
    (h4 : s.stack = t.stack) (h5 : s.sp = t.sp) (h6 : s.dt = t.dt) (h7 : s.st = t.st) (h8 : s.key = t.key)
    (h9 : s.fb = t.fb) (h10 : s.kwActive = t.kwActive) (h11 : s.kwReg = t.kwReg) (h12 : s.fault = t.fault)
    (h13 : s.mem = t.mem) (h14 : s.params = t.params) (h15 : s.draws = t.draws) (h16 : s.host = t.host)
    (h17 : s.batch = t.batch) (h18 : s.lastImage = t.lastImage) (h19 : s.out = t.out) : s = t := by
  cases s; cases t; simp_all

@[simp] theorem State.setV_v (s : State) (x : Reg) (b : Byte) : (s.setV x b).v = s.v.set x.val b := rfl
@[simp] theorem State.setV_iReg (s : State) (x : Reg) (b : Byte) : (s.setV x b).iReg = s.iReg := rfl
@[simp] theorem State.setV_pc (s : State) (x : Reg) (b : Byte) : (s.setV x b).pc = s.pc := rfl
@[simp] theorem State.setV_stack (s : State) (x : Reg) (b : Byte) : (s.setV x b).stack = s.stack := rfl
@[simp] theorem State.setV_sp (s : State) (x : Reg) (b : Byte) : (s.setV x b).sp = s.sp := rfl
@[simp] theorem State.setV_dt (s : State) (x : Reg) (b : Byte) : (s.setV x b).dt = s.dt := rfl
@[simp] theorem State.setV_st (s : State) (x : Reg) (b : Byte) : (s.setV x b).st = s.st := rfl
@[simp] theorem State.setV_key (s : State) (x : Reg) (b : Byte) : (s.setV x b).key = s.key := rfl
@[simp] theorem State.setV_fb (s : State) (x : Reg) (b : Byte) : (s.setV x b).fb = s.fb := rfl
@[simp] theorem State.setV_kwActive (s : State) (x : Reg) (b : Byte) : (s.setV x b).kwActive = s.kwActive := rfl
@[simp] theorem State.setV_kwReg (s : State) (x : Reg) (b : Byte) : (s.setV x b).kwReg = s.kwReg := rfl
@[simp] theorem State.setV_fault (s : State) (x : Reg) (b : Byte) : (s.setV x b).fault = s.fault := rfl
@[simp] theorem State.setV_mem (s : State) (x : Reg) (b : Byte) : (s.setV x b).mem = s.mem := rfl
@[simp] theorem State.setV_params (s : State) (x : Reg) (b : Byte) : (s.setV x b).params = s.params := rfl
@[simp] theorem State.setV_draws (s : State) (x : Reg) (b : Byte) : (s.setV x b).draws = s.draws := rfl
@[simp] theorem State.setV_host (s : State) (x : Reg) (b : Byte) : (s.setV x b).host = s.host := rfl
@[simp] theorem State.setV_batch (s : State) (x : Reg) (b : Byte) : (s.setV x b).batch = s.batch := rfl
@[simp] theorem State.setV_lastImage (s : State) (x : Reg) (b : Byte) : (s.setV x b).lastImage = s.lastImage := rfl
@[simp] theorem State.setV_out (s : State) (x : Reg) (b : Byte) : (s.setV x b).out = s.out := rfl

@[simp] theorem State.advance_v (s : State) : (s.advance).v = s.v := rfl
@[simp] theorem State.advance_iReg (s : State) : (s.advance).iReg = s.iReg := rfl
@[simp] theorem State.advance_pc (s : State) : (s.advance).pc = s.pc + 2 := rfl
@[simp] theorem State.advance_stack (s : State) : (s.advance).stack = s.stack := rfl
@[simp] theorem State.advance_sp (s : State) : (s.advance).sp = s.sp := rfl
@[simp] theorem State.advance_dt (s : State) : (s.advance).dt = s.dt := rfl
@[simp] theorem State.advance_st (s : State) : (s.advance).st = s.st := rfl
@[simp] theorem State.advance_key (s : State) : (s.advance).key = s.key := rfl
@[simp] theorem State.advance_fb (s : State) : (s.advance).fb = s.fb := rfl
@[simp] theorem State.advance_kwActive (s : State) : (s.advance).kwActive = s.kwActive := rfl
@[simp] theorem State.advance_kwReg (s : State) : (s.advance).kwReg = s.kwReg := rfl
@[simp] theorem State.advance_fault (s : State) : (s.advance).fault = s.fault := rfl
@[simp] theorem State.advance_mem (s : State) : (s.advance).mem = s.mem := rfl
@[simp] theorem State.advance_params (s : State) : (s.advance).params = s.params := rfl
@[simp] theorem State.advance_draws (s : State) : (s.advance).draws = s.draws := rfl
@[simp] theorem State.advance_host (s : State) : (s.advance).host = s.host := rfl
@[simp] theorem State.advance_batch (s : State) : (s.advance).batch = s.batch := rfl
@[simp] theorem State.advance_lastImage (s : State) : (s.advance).lastImage = s.lastImage := rfl
@[simp] theorem State.advance_out (s : State) : (s.advance).out = s.out := rfl

@[simp] theorem State.setPc_v (s : State) (a : Word) : (s.setPc a).v = s.v := rfl
@[simp] theorem State.setPc_iReg (s : State) (a : Word) : (s.setPc a).iReg = s.iReg := rfl
@[simp] theorem State.setPc_pc (s : State) (a : Word) : (s.setPc a).pc = a := rfl
@[simp] theorem State.setPc_stack (s : State) (a : Word) : (s.setPc a).stack = s.stack := rfl
@[simp] theorem State.setPc_sp (s : State) (a : Word) : (s.setPc a).sp = s.sp := rfl
@[simp] theorem State.setPc_dt (s : State) (a : Word) : (s.setPc a).dt = s.dt := rfl
@[simp] theorem State.setPc_st (s : State) (a : Word) : (s.setPc a).st = s.st := rfl
@[simp] theorem State.setPc_key (s : State) (a : Word) : (s.setPc a).key = s.key := rfl
@[simp] theorem State.setPc_fb (s : State) (a : Word) : (s.setPc a).fb = s.fb := rfl
@[simp] theorem State.setPc_kwActive (s : State) (a : Word) : (s.setPc a).kwActive = s.kwActive := rfl
@[simp] theorem State.setPc_kwReg (s : State) (a : Word) : (s.setPc a).kwReg = s.kwReg := rfl
@[simp] theorem State.setPc_fault (s : State) (a : Word) : (s.setPc a).fault = s.fault := rfl
@[simp] theorem State.setPc_mem (s : State) (a : Word) : (s.setPc a).mem = s.mem := rfl
@[simp] theorem State.setPc_params (s : State) (a : Word) : (s.setPc a).params = s.params := rfl
@[simp] theorem State.setPc_draws (s : State) (a : Word) : (s.setPc a).draws = s.draws := rfl
@[simp] theorem State.setPc_host (s : State) (a : Word) : (s.setPc a).host = s.host := rfl
@[simp] theorem State.setPc_batch (s : State) (a : Word) : (s.setPc a).batch = s.batch := rfl
@[simp] theorem State.setPc_lastImage (s : State) (a : Word) : (s.setPc a).lastImage = s.lastImage := rfl
@[simp] theorem State.setPc_out (s : State) (a : Word) : (s.setPc a).out = s.out := rfl

@[simp] theorem State.setI_v (s : State) (a : Word) : (s.setI a).v = s.v := rfl
@[simp] theorem State.setI_iReg (s : State) (a : Word) : (s.setI a).iReg = a := rfl
@[simp] theorem State.setI_pc (s : State) (a : Word) : (s.setI a).pc = s.pc := rfl
@[simp] theorem State.setI_stack (s : State) (a : Word) : (s.setI a).stack = s.stack := rfl
@[simp] theorem State.setI_sp (s : State) (a : Word) : (s.setI a).sp = s.sp := rfl
@[simp] theorem State.setI_dt (s : State) (a : Word) : (s.setI a).dt = s.dt := rfl
@[simp] theorem State.setI_st (s : State) (a : Word) : (s.setI a).st = s.st := rfl
@[simp] theorem State.setI_key (s : State) (a : Word) : (s.setI a).key = s.key := rfl
@[simp] theorem State.setI_fb (s : State) (a : Word) : (s.setI a).fb = s.fb := rfl
@[simp] theorem State.setI_kwActive (s : State) (a : Word) : (s.setI a).kwActive = s.kwActive := rfl
@[simp] theorem State.setI_kwReg (s : State) (a : Word) : (s.setI a).kwReg = s.kwReg := rfl
@[simp] theorem State.setI_fault (s : State) (a : Word) : (s.setI a).fault = s.fault := rfl
@[simp] theorem State.setI_mem (s : State) (a : Word) : (s.setI a).mem = s.mem := rfl
@[simp] theorem State.setI_params (s : State) (a : Word) : (s.setI a).params = s.params := rfl
@[simp] theorem State.setI_draws (s : State) (a : Word) : (s.setI a).draws = s.draws := rfl
@[simp] theorem State.setI_host (s : State) (a : Word) : (s.setI a).host = s.host := rfl
@[simp] theorem State.setI_batch (s : State) (a : Word) : (s.setI a).batch = s.batch := rfl
@[simp] theorem State.setI_lastImage (s : State) (a : Word) : (s.setI a).lastImage = s.lastImage := rfl
@[simp] theorem State.setI_out (s : State) (a : Word) : (s.setI a).out = s.out := rfl

@[simp] theorem State.raise_v (s : State) (k : FaultKind) (n : Nat) : (s.raise k n).v = s.v := rfl
@[simp] theorem State.raise_iReg (s : State) (k : FaultKind) (n : Nat) : (s.raise k n).iReg = s.iReg := rfl
@[simp] theorem State.raise_pc (s : State) (k : FaultKind) (n : Nat) : (s.raise k n).pc = s.pc := rfl
@[simp] theorem State.raise_stack (s : State) (k : FaultKind) (n : Nat) : (s.raise k n).stack = s.stack := rfl
@[simp] theorem State.raise_sp (s : State) (k : FaultKind) (n : Nat) : (s.raise k n).sp = s.sp := rfl
@[simp] theorem State.raise_dt (s : State) (k : FaultKind) (n : Nat) : (s.raise k n).dt = s.dt := rfl
@[simp] theorem State.raise_st (s : State) (k : FaultKind) (n : Nat) : (s.raise k n).st = s.st := rfl
@[simp] theorem State.raise_key (s : State) (k : FaultKind) (n : Nat) : (s.raise k n).key = s.key := rfl
@[simp] theorem State.raise_fb (s : State) (k : FaultKind) (n : Nat) : (s.raise k n).fb = s.fb := rfl
@[simp] theorem State.raise_kwActive (s : State) (k : FaultKind) (n : Nat) : (s.raise k n).kwActive = s.kwActive := rfl
@[simp] theorem State.raise_kwReg (s : State) (k : FaultKind) (n : Nat) : (s.raise k n).kwReg = s.kwReg := rfl
@[simp] theorem State.raise_fault (s : State) (k : FaultKind) (n : Nat) : (s.raise k n).fault = { kind := k, info := n } := rfl
@[simp] theorem State.raise_mem (s : State) (k : FaultKind) (n : Nat) : (s.raise k n).mem = s.mem := rfl
@[simp] theorem State.raise_params (s : State) (k : FaultKind) (n : Nat) : (s.raise k n).params = s.params := rfl
@[simp] theorem State.raise_draws (s : State) (k : FaultKind) (n : Nat) : (s.raise k n).draws = s.draws := rfl
@[simp] theorem State.raise_host (s : State) (k : FaultKind) (n : Nat) : (s.raise k n).host = s.host := rfl
@[simp] theorem State.raise_batch (s : State) (k : FaultKind) (n : Nat) : (s.raise k n).batch = s.batch := rfl
@[simp] theorem State.raise_lastImage (s : State) (k : FaultKind) (n : Nat) : (s.raise k n).lastImage = s.lastImage := rfl
@[simp] theorem State.raise_out (s : State) (k : FaultKind) (n : Nat) : (s.raise k n).out = s.out := rfl

@[simp] theorem State.emit_v (s : State) (e : Output) : (s.emit e).v = s.v := rfl
@[simp] theorem State.emit_iReg (s : State) (e : Output) : (s.emit e).iReg = s.iReg := rfl
@[simp] theorem State.emit_pc (s : State) (e : Output) : (s.emit e).pc = s.pc := rfl
@[simp] theorem State.emit_stack (s : State) (e : Output) : (s.emit e).stack = s.stack := rfl
@[simp] theorem State.emit_sp (s : State) (e : Output) : (s.emit e).sp = s.sp := rfl
@[simp] theorem State.emit_dt (s : State) (e : Output) : (s.emit e).dt = s.dt := rfl
@[simp] theorem State.emit_st (s : State) (e : Output) : (s.emit e).st = s.st := rfl
@[simp] theorem State.emit_key (s : State) (e : Output) : (s.emit e).key = s.key := rfl
@[simp] theorem State.emit_fb (s : State) (e : Output) : (s.emit e).fb = s.fb := rfl
@[simp] theorem State.emit_kwActive (s : State) (e : Output) : (s.emit e).kwActive = s.kwActive := rfl
@[simp] theorem State.emit_kwReg (s : State) (e : Output) : (s.emit e).kwReg = s.kwReg := rfl
@[simp] theorem State.emit_fault (s : State) (e : Output) : (s.emit e).fault = s.fault := rfl
@[simp] theorem State.emit_mem (s : State) (e : Output) : (s.emit e).mem = s.mem := rfl
@[simp] theorem State.emit_params (s : State) (e : Output) : (s.emit e).params = s.params := rfl
@[simp] theorem State.emit_draws (s : State) (e : Output) : (s.emit e).draws = s.draws := rfl
@[simp] theorem State.emit_host (s : State) (e : Output) : (s.emit e).host = s.host := rfl
@[simp] theorem State.emit_batch (s : State) (e : Output) : (s.emit e).batch = s.batch := rfl
@[simp] theorem State.emit_lastImage (s : State) (e : Output) : (s.emit e).lastImage = s.lastImage := rfl
@[simp] theorem State.emit_out (s : State) (e : Output) : (s.emit e).out = s.out ++ [e] := rfl

@[simp] theorem State.setKey_v (s : State) (k : Fin 16) (b : Bool) : (s.setKey k b).v = s.v := rfl
@[simp] theorem State.setKey_iReg (s : State) (k : Fin 16) (b : Bool) : (s.setKey k b).iReg = s.iReg := rfl
@[simp] theorem State.setKey_pc (s : State) (k : Fin 16) (b : Bool) : (s.setKey k b).pc = s.pc := rfl
@[simp] theorem State.setKey_stack (s : State) (k : Fin 16) (b : Bool) : (s.setKey k b).stack = s.stack := rfl
@[simp] theorem State.setKey_sp (s : State) (k : Fin 16) (b : Bool) : (s.setKey k b).sp = s.sp := rfl
@[simp] theorem State.setKey_dt (s : State) (k : Fin 16) (b : Bool) : (s.setKey k b).dt = s.dt := rfl
@[simp] theorem State.setKey_st (s : State) (k : Fin 16) (b : Bool) : (s.setKey k b).st = s.st := rfl
@[simp] theorem State.setKey_key (s : State) (k : Fin 16) (b : Bool) : (s.setKey k b).key = s.key.set k.val b := rfl
@[simp] theorem State.setKey_fb (s : State) (k : Fin 16) (b : Bool) : (s.setKey k b).fb = s.fb := rfl
@[simp] theorem State.setKey_kwActive (s : State) (k : Fin 16) (b : Bool) : (s.setKey k b).kwActive = s.kwActive := rfl
@[simp] theorem State.setKey_kwReg (s : State) (k : Fin 16) (b : Bool) : (s.setKey k b).kwReg = s.kwReg := rfl
@[simp] theorem State.setKey_fault (s : State) (k : Fin 16) (b : Bool) : (s.setKey k b).fault = s.fault := rfl
@[simp] theorem State.setKey_mem (s : State) (k : Fin 16) (b : Bool) : (s.setKey k b).mem = s.mem := rfl
@[simp] theorem State.setKey_params (s : State) (k : Fin 16) (b : Bool) : (s.setKey k b).params = s.params := rfl
@[simp] theorem State.setKey_draws (s : State) (k : Fin 16) (b : Bool) : (s.setKey k b).draws = s.draws := rfl
@[simp] theorem State.setKey_host (s : State) (k : Fin 16) (b : Bool) : (s.setKey k b).host = s.host := rfl
@[simp] theorem State.setKey_batch (s : State) (k : Fin 16) (b : Bool) : (s.setKey k b).batch = s.batch := rfl
@[simp] theorem State.setKey_lastImage (s : State) (k : Fin 16) (b : Bool) : (s.setKey k b).lastImage = s.lastImage := rfl
@[simp] theorem State.setKey_out (s : State) (k : Fin 16) (b : Bool) : (s.setKey k b).out = s.out := rfl

@[simp] theorem State.advanceI_v (s : State) (x : Reg) : (s.advanceI x).v = s.v := rfl
@[simp] theorem State.advanceI_iReg (s : State) (x : Reg) : (s.advanceI x).iReg = s.iReg + BitVec.ofNat 16 (x.val + 1) := rfl
@[simp] theorem State.advanceI_pc (s : State) (x : Reg) : (s.advanceI x).pc = s.pc := rfl
@[simp] theorem State.advanceI_stack (s : State) (x : Reg) : (s.advanceI x).stack = s.stack := rfl
@[simp] theorem State.advanceI_sp (s : State) (x : Reg) : (s.advanceI x).sp = s.sp := rfl
@[simp] theorem State.advanceI_dt (s : State) (x : Reg) : (s.advanceI x).dt = s.dt := rfl
@[simp] theorem State.advanceI_st (s : State) (x : Reg) : (s.advanceI x).st = s.st := rfl
@[simp] theorem State.advanceI_key (s : State) (x : Reg) : (s.advanceI x).key = s.key := rfl
@[simp] theorem State.advanceI_fb (s : State) (x : Reg) : (s.advanceI x).fb = s.fb := rfl
@[simp] theorem State.advanceI_kwActive (s : State) (x : Reg) : (s.advanceI x).kwActive = s.kwActive := rfl
@[simp] theorem State.advanceI_kwReg (s : State) (x : Reg) : (s.advanceI x).kwReg = s.kwReg := rfl
@[simp] theorem State.advanceI_fault (s : State) (x : Reg) : (s.advanceI x).fault = s.fault := rfl
@[simp] theorem State.advanceI_mem (s : State) (x : Reg) : (s.advanceI x).mem = s.mem := rfl
@[simp] theorem State.advanceI_params (s : State) (x : Reg) : (s.advanceI x).params = s.params := rfl
@[simp] theorem State.advanceI_draws (s : State) (x : Reg) : (s.advanceI x).draws = s.draws := rfl
@[simp] theorem State.advanceI_host (s : State) (x : Reg) : (s.advanceI x).host = s.host := rfl
@[simp] theorem State.advanceI_batch (s : State) (x : Reg) : (s.advanceI x).batch = s.batch := rfl
@[simp] theorem State.advanceI_lastImage (s : State) (x : Reg) : (s.advanceI x).lastImage = s.lastImage := rfl
@[simp] theorem State.advanceI_out (s : State) (x : Reg) : (s.advanceI x).out = s.out := rfl

@[simp] theorem State.loadBlock_v (s : State) (a : Nat) (x : Reg) : (s.loadBlock a x).v = Vector.ofFn fun i => if i.val ≤ x.val then s.memRead (a + i.val) else s.v[i.val] := rfl
@[simp] theorem State.loadBlock_iReg (s : State) (a : Nat) (x : Reg) : (s.loadBlock a x).iReg = s.iReg := rfl
@[simp] theorem State.loadBlock_pc (s : State) (a : Nat) (x : Reg) : (s.loadBlock a x).pc = s.pc := rfl
@[simp] theorem State.loadBlock_stack (s : State) (a : Nat) (x : Reg) : (s.loadBlock a x).stack = s.stack := rfl
@[simp] theorem State.loadBlock_sp (s : State) (a : Nat) (x : Reg) : (s.loadBlock a x).sp = s.sp := rfl
@[simp] theorem State.loadBlock_dt (s : State) (a : Nat) (x : Reg) : (s.loadBlock a x).dt = s.dt := rfl
@[simp] theorem State.loadBlock_st (s : State) (a : Nat) (x : Reg) : (s.loadBlock a x).st = s.st := rfl
@[simp] theorem State.loadBlock_key (s : State) (a : Nat) (x : Reg) : (s.loadBlock a x).key = s.key := rfl
@[simp] theorem State.loadBlock_fb (s : State) (a : Nat) (x : Reg) : (s.loadBlock a x).fb = s.fb := rfl
@[simp] theorem State.loadBlock_kwActive (s : State) (a : Nat) (x : Reg) : (s.loadBlock a x).kwActive = s.kwActive := rfl
@[simp] theorem State.loadBlock_kwReg (s : State) (a : Nat) (x : Reg) : (s.loadBlock a x).kwReg = s.kwReg := rfl
@[simp] theorem State.loadBlock_fault (s : State) (a : Nat) (x : Reg) : (s.loadBlock a x).fault = s.fault := rfl
@[simp] theorem State.loadBlock_mem (s : State) (a : Nat) (x : Reg) : (s.loadBlock a x).mem = s.mem := rfl
@[simp] theorem State.loadBlock_params (s : State) (a : Nat) (x : Reg) : (s.loadBlock a x).params = s.params := rfl
@[simp] theorem State.loadBlock_draws (s : State) (a : Nat) (x : Reg) : (s.loadBlock a x).draws = s.draws := rfl
@[simp] theorem State.loadBlock_host (s : State) (a : Nat) (x : Reg) : (s.loadBlock a x).host = s.host := rfl
@[simp] theorem State.loadBlock_batch (s : State) (a : Nat) (x : Reg) : (s.loadBlock a x).batch = s.batch := rfl
@[simp] theorem State.loadBlock_lastImage (s : State) (a : Nat) (x : Reg) : (s.loadBlock a x).lastImage = s.lastImage := rfl
@[simp] theorem State.loadBlock_out (s : State) (a : Nat) (x : Reg) : (s.loadBlock a x).out = s.out := rfl

end Sys2Proof.Machine
end

