-- ==== Sys2Proof/Laws/Memory.lean ====
section
/-! SUPPORT. Memory: read after write, other addresses, and the canonical form every memory operation
keeps (spec/20_memory.md R74, R75). -/

namespace Sys2Proof.Machine

/-- A canonical memory reads, below its first admitted address, as the reset contents. -/
theorem Memory.read_below {p : Params} {m : Memory} {lo a : Nat} (h : Memory.wfFrom p lo m = true)
    (ha : a < lo) : Memory.read p m a = resetByte p a := by
  cases m with
  | nil => rfl
  | cons c rest =>
    obtain ⟨b, w⟩ := c
    simp only [Memory.wfFrom, Bool.and_eq_true, decide_eq_true_eq] at h
    simp [Memory.read, show a < b by omega]

/-- A canonical form from a later address is one from an earlier address. -/
theorem Memory.wfFrom_mono {p : Params} {m : Memory} {lo lo' : Nat} (h : Memory.wfFrom p lo m = true)
    (hl : lo' ≤ lo) : Memory.wfFrom p lo' m = true := by
  cases m with
  | nil => rfl
  | cons c rest =>
    obtain ⟨b, w⟩ := c
    simp only [Memory.wfFrom, Bool.and_eq_true, decide_eq_true_eq] at h ⊢
    exact ⟨⟨⟨by omega, h.1.1.2⟩, h.1.2⟩, h.2⟩

/-- A write keeps the canonical form. -/
theorem Memory.write_wfFrom {p : Params} {m : Memory} {lo a : Nat} {v : Byte}
    (h : Memory.wfFrom p lo m = true) (hlo : lo ≤ a) (ha : a < memSize) :
    Memory.wfFrom p lo (Memory.write p m a v) = true := by
  induction m generalizing lo with
  | nil =>
    simp only [Memory.write]
    split <;> simp_all [Memory.wfFrom]
  | cons c rest ih =>
    obtain ⟨b, w⟩ := c
    have h0 := h
    simp only [Memory.wfFrom, Bool.and_eq_true, decide_eq_true_eq] at h
    simp only [Memory.write]
    split
    · split
      · exact h0
      · rename_i hv
        have : a + 1 ≤ b := by omega
        simp_all [Memory.wfFrom]
    · split
      · subst_vars
        split
        · exact Memory.wfFrom_mono h.2 (by omega)
        · simp_all [Memory.wfFrom]
      · have := ih h.2 (by omega)
        simp_all [Memory.wfFrom]

/-- A write keeps the canonical form. -/
theorem Memory.write_wf {p : Params} {m : Memory} {a : Nat} {v : Byte} (h : Memory.wf p m = true)
    (ha : a < memSize) : Memory.wf p (Memory.write p m a v) = true :=
  Memory.write_wfFrom h (Nat.zero_le a) ha

/-- What a canonical memory reads after a write: the byte written there, every other as before. -/
theorem Memory.read_write {p : Params} {m : Memory} {lo a b : Nat} {v : Byte}
    (h : Memory.wfFrom p lo m = true) :
    Memory.read p (Memory.write p m a v) b = if b = a then v else Memory.read p m b := by
  induction m generalizing lo with
  | nil =>
    simp only [Memory.write]
    split <;> split <;> simp_all [Memory.read]
  | cons c rest ih =>
    obtain ⟨d, w⟩ := c
    simp only [Memory.wfFrom, Bool.and_eq_true, decide_eq_true_eq] at h
    have hb := fun k hk => Memory.read_below (a := k) h.2 hk
    simp only [Memory.write]
    split
    · split
      · subst_vars; by_cases hba : b = a <;> simp_all [Memory.read]
      · simp only [Memory.read]
        split_ifs <;> first | rfl | omega
    · split
      · subst_vars
        split
        · subst_vars
          simp only [Memory.read]
          split_ifs with h1 h2
          · subst h1; exact hb _ (by omega)
          · exact hb _ (by omega)
          · rfl
        · simp only [Memory.read]
          split_ifs <;> first | rfl | omega
      · simp only [Memory.read, ih h.2]
        split_ifs <;> first | rfl | omega

/-- Reading after MemWrite at a valid address of a canonical memory (R74, R75). -/
theorem State.memRead_memWrite {s : State} {a b : Nat} {v : Byte} (h : Memory.wf s.params s.mem = true)
    (ha : a < memSize) : (s.memWrite a v).memRead b = if b = a then v else s.memRead b := by
  simp only [State.memWrite, validAddr, ha, if_true, State.memRead]
  exact Memory.read_write h

/-- MemWrite keeps the canonical form. -/
theorem State.memWrite_wf {s : State} {a : Nat} {v : Byte} (h : Memory.wf s.params s.mem = true) :
    Memory.wf (s.memWrite a v).params (s.memWrite a v).mem = true := by
  unfold State.memWrite
  split
  · exact Memory.write_wf h ‹_›
  · exact h

/-- MemWrite changes memory only. -/
theorem State.memWrite_frame (s : State) (a : Nat) (v : Byte) :
    s.memWrite a v = { s with mem := (s.memWrite a v).mem } := by
  unfold State.memWrite; split <;> rfl

/-- A store of bytes changes memory only. -/
theorem State.storeBytes_frame (s : State) (a : Nat) (bs : List Byte) :
    s.storeBytes a bs = { s with mem := (s.storeBytes a bs).mem } := by
  induction bs generalizing s a with
  | nil => rfl
  | cons b rest ih =>
    simp only [State.storeBytes]
    rw [ih]
    have := State.memWrite_frame s a b
    rw [this]

/-- A store of bytes keeps the canonical form. -/
theorem State.storeBytes_wf {s : State} {a : Nat} {bs : List Byte} (h : Memory.wf s.params s.mem = true) :
    Memory.wf s.params (s.storeBytes a bs).mem = true := by
  induction bs generalizing s a with
  | nil => exact h
  | cons b rest ih =>
    have hp : (s.memWrite a b).params = s.params := by rw [State.memWrite_frame]
    have := ih (s := s.memWrite a b) (a := a + 1) (State.memWrite_wf h)
    rwa [hp] at this

/-- What a canonical memory reads after a store of bytes that lie in memory: the bytes stored, every
other byte as before. -/
theorem State.memRead_storeBytes {s : State} {a b : Nat} {bs : List Byte}
    (h : Memory.wf s.params s.mem = true) (hin : a + bs.length ≤ 4096) :
    (s.storeBytes a bs).memRead b =
      if hb : a ≤ b ∧ b < a + bs.length then bs[b - a]'(by omega) else s.memRead b := by
  induction bs generalizing s a with
  | nil =>
    have : ¬(a ≤ b ∧ b < a + ([] : List Byte).length) := by simp
    rw [dif_neg this]; rfl
  | cons c rest ih =>
    simp only [List.length_cons] at hin
    rw [State.storeBytes, ih (State.memWrite_wf h) (by omega), State.memRead_memWrite h (by simp only [memSize] at *; omega)]
    by_cases h1 : b = a
    · subst h1
      simp
    · by_cases h2 : a + 1 ≤ b ∧ b < a + 1 + rest.length
      · have h3 : a ≤ b ∧ b < a + (c :: rest).length := by simp; omega
        rw [dif_pos h2, dif_pos h3]
        have h4 : b - a = (b - (a + 1)) + 1 := by omega
        simp [h4]
      · have h3 : ¬(a ≤ b ∧ b < a + (c :: rest).length) := by simp; omega
        rw [dif_neg h2, dif_neg h3, if_neg h1]

end Sys2Proof.Machine
end

