-- ==== Sys2Proof/Laws/Ops.lean ====
section
/-! SUPPORT. One lemma per shared operation saying once what it can do, and what exec and cycle can
answer at all. -/

namespace Sys2Proof.Machine

/-! ### Bytes -/

theorem addBytes_eq (a b : Byte) : addBytes a b = a + b := by
  apply BitVec.eq_of_toNat_eq; simp [addBytes]

theorem subBytes_eq (a b : Byte) : subBytes a b = a - b := by
  apply BitVec.eq_of_toNat_eq
  have ha := a.isLt
  have hb := b.isLt
  simp only [subBytes, BitVec.toNat_ofInt, BitVec.toNat_sub]
  omega

theorem shiftRight1_eq (a : Byte) : shiftRight1 a = a >>> 1 := by
  apply BitVec.eq_of_toNat_eq
  have ha := a.isLt
  simp only [shiftRight1, BitVec.toNat_ofNat, BitVec.toNat_ushiftRight, Nat.shiftRight_eq_div_pow]
  omega

theorem shiftLeft1_eq (a : Byte) : shiftLeft1 a = a <<< 1 := by
  apply BitVec.eq_of_toNat_eq
  simp only [shiftLeft1, BitVec.toNat_ofNat, BitVec.toNat_shiftLeft, Nat.shiftLeft_eq]
  omega

/-! ### Call stack, range check, key index, write order -/

/-- A push is refused exactly on a full stack. -/
theorem State.push_eq_none {s : State} {w : Word} : s.push w = none ↔ s.sp.val = 16 := by
  unfold State.push; split <;> simp <;> omega

/-- What a push does: it writes stack[SP] and counts it. -/
theorem State.push_eq_some {s t : State} {w : Word} (h : s.push w = some t) :
    ∃ hs : s.sp.val < 16, t = { s with stack := s.stack.set s.sp.val w, sp := ⟨s.sp.val + 1, by omega⟩ } := by
  unfold State.push at h
  split at h
  · rename_i hs
    exact ⟨hs, by simpa using h.symm⟩
  · simp at h

/-- A pop is refused exactly on an empty stack. -/
theorem State.pop_eq_none {s : State} : s.pop = none ↔ s.sp.val = 0 := by
  unfold State.pop; split <;> simp <;> omega

/-- What a pop does: it answers the newest entry and uncounts it. -/
theorem State.pop_eq_some {s t : State} {w : Word} (h : s.pop = some (w, t)) :
    ∃ hs : 0 < s.sp.val, w = s.stack[s.sp.val - 1] ∧ t = { s with sp := ⟨s.sp.val - 1, by omega⟩ } := by
  unfold State.pop at h
  split at h
  · rename_i hs
    simp only [Option.some.injEq, Prod.mk.injEq] at h
    exact ⟨hs, h.1.symm, h.2.symm⟩
  · simp at h

/-- The range check passes exactly when the last address is in memory. -/
theorem rangeFault_eq_none {base : Word} {count : Nat} :
    rangeFault base count = none ↔ base.toNat + count - 1 < 4096 := by
  unfold rangeFault memSize; split <;> simp <;> omega

/-- What the range check records. -/
theorem rangeFault_eq_some {base : Word} {count a : Nat} (h : rangeFault base count = some a) :
    4096 ≤ base.toNat + count - 1 ∧ a = max base.toNat 4096 := by
  unfold rangeFault memSize at h
  split at h
  · exact ⟨by omega, by simpa using h.symm⟩
  · simp at h

/-- A register value up to 0xF selects its own key. -/
theorem keyIndex_of_le {p : Params} {v : Byte} (h : v.toNat ≤ 0xF) :
    keyIndex p v = some ⟨v.toNat, by omega⟩ := by simp [keyIndex, h]

/-- A register value above 0xF follows KEY_INDEX_POLICY. -/
theorem keyIndex_of_gt {p : Params} {v : Byte} (h : 0xF < v.toNat) :
    keyIndex p v = match p.keyIndexPolicy with
      | .fault => none
      | .mask4 => some (Fin.ofNat 16 (v &&& 0x0F).toNat) := by
  have h' : ¬v.toNat ≤ 0xF := by omega
  cases hp : p.keyIndexPolicy <;> simp [keyIndex, h', hp]

/-- The write order of result and flag changes V only. -/
theorem State.writeback_eq (s : State) (x : Reg) (r f : Byte) :
    s.writeback x r f =
      { s with v := (if s.params.vfFlagLast then (s.v.set x.val r).set 15 f
                     else (s.v.set 15 f).set x.val r) } := by
  unfold State.writeback State.setV; split <;> rfl

/-- A key number outside 0..15 names no key. -/
theorem keyOf_eq_none {k : Int} : keyOf k = none ↔ ¬(0 ≤ k ∧ k ≤ 15) := by
  unfold keyOf; split <;> simp_all

/-- A key number in 0..15 names its key. -/
theorem keyOf_of_mem {k : Int} (h : 0 ≤ k ∧ k ≤ 15) : keyOf k = some ⟨k.toNat, by omega⟩ := by
  simp [keyOf, h]

/-! ### Timers -/

/-- What a timer step does: both timers count down, and PlayBeep is emitted where ST was 1. -/
theorem State.timerStep_eq (s : State) :
    s.timerStep = { s with dt := countdown s.dt, st := countdown s.st,
                           out := if s.st = 1 then s.out ++ [.playBeep] else s.out } := by
  unfold State.timerStep State.emit; split <;> simp_all

/-- One countdown step of a timer. -/
theorem countdown_spec (t : Byte) :
    (t = 0 → countdown t = 0) ∧ (t ≠ 0 → (countdown t).toNat = t.toNat - 1) := by
  revert t; decide

/-! ### exec and cycle -/

/-- The second state differs from the first in core state, the draws and the outputs only, and in no
key. -/
structure KeepsHost (s t : State) : Prop where
  params : t.params = s.params
  host : t.host = s.host
  batch : t.batch = s.batch
  lastImage : t.lastImage = s.lastImage
  key : t.key = s.key

theorem KeepsHost.skipIf (s : State) (b : Bool) : KeepsHost s (s.skipIf b) := by
  cases b <;> exact ⟨rfl, rfl, rfl, rfl, rfl⟩

theorem KeepsHost.writeback (s : State) (x : Reg) (r f : Byte) : KeepsHost s (s.advance.writeback x r f) := by
  rw [State.writeback_eq]; exact ⟨rfl, rfl, rfl, rfl, rfl⟩

theorem KeepsHost.storeBytes (s : State) (a : Nat) (bs : List Byte) : KeepsHost s (s.advance.storeBytes a bs) := by
  rw [State.storeBytes_frame]; exact ⟨rfl, rfl, rfl, rfl, rfl⟩

/-- exec always answers a next state, and leaves the host's side, the parameters and the keys. -/
theorem exec_total (i : Instr) (s : State) : ∃ t, exec i s = .next t ∧ KeepsHost s t := by
  cases i
  case ret =>
    simp only [exec, execRet]
    split
    · exact ⟨_, rfl, ⟨rfl, rfl, rfl, rfl, rfl⟩⟩
    · rename_i h
      obtain ⟨_, _, rfl⟩ := State.pop_eq_some h
      exact ⟨_, rfl, ⟨rfl, rfl, rfl, rfl, rfl⟩⟩
  case call nnn =>
    simp only [exec, execCall]
    split
    · exact ⟨_, rfl, ⟨rfl, rfl, rfl, rfl, rfl⟩⟩
    · rename_i h
      obtain ⟨_, rfl⟩ := State.push_eq_some h
      exact ⟨_, rfl, ⟨rfl, rfl, rfl, rfl, rfl⟩⟩
  case seImm => exact ⟨_, rfl, KeepsHost.skipIf ..⟩
  case sneImm => exact ⟨_, rfl, KeepsHost.skipIf ..⟩
  case seReg => exact ⟨_, rfl, KeepsHost.skipIf ..⟩
  case sneReg => exact ⟨_, rfl, KeepsHost.skipIf ..⟩
  case addReg => exact ⟨_, rfl, KeepsHost.writeback ..⟩
  case sub => exact ⟨_, rfl, KeepsHost.writeback ..⟩
  case shr => exact ⟨_, rfl, KeepsHost.writeback ..⟩
  case subn => exact ⟨_, rfl, KeepsHost.writeback ..⟩
  case shl => exact ⟨_, rfl, KeepsHost.writeback ..⟩
  case drw => simp only [exec, execDrw]; split <;> exact ⟨_, rfl, ⟨rfl, rfl, rfl, rfl, rfl⟩⟩
  case skp =>
    simp only [exec, execSkp]
    split
    · exact ⟨_, rfl, ⟨rfl, rfl, rfl, rfl, rfl⟩⟩
    · exact ⟨_, rfl, KeepsHost.skipIf ..⟩
  case sknp =>
    simp only [exec, execSknp]
    split
    · exact ⟨_, rfl, ⟨rfl, rfl, rfl, rfl, rfl⟩⟩
    · exact ⟨_, rfl, KeepsHost.skipIf ..⟩
  case ldB =>
    simp only [exec, execLdB]
    split
    · exact ⟨_, rfl, ⟨rfl, rfl, rfl, rfl, rfl⟩⟩
    · exact ⟨_, rfl, KeepsHost.storeBytes ..⟩
  case ldMemStore x =>
    simp only [exec, execLdMemStore]
    split
    · exact ⟨_, rfl, ⟨rfl, rfl, rfl, rfl, rfl⟩⟩
    · have h := KeepsHost.storeBytes s s.iReg.toNat (s.regBlock x)
      exact ⟨_, rfl, ⟨h.params, h.host, h.batch, h.lastImage, h.key⟩⟩
  case ldMemLoad =>
    simp only [exec, execLdMemLoad]
    split <;> exact ⟨_, rfl, ⟨by simp, by simp, by simp, by simp, by simp⟩⟩
  all_goals exact ⟨_, rfl, ⟨rfl, rfl, rfl, rfl, rfl⟩⟩

/-- The cases of a cycle (R140): halted, fetch fault, an instruction, or an UNKNOWN word. -/
theorem cycle_cases (s : State) :
    (s.faulted = true ∧ cycle s = .next s) ∨
    (s.faulted = false ∧ ¬s.fetchable ∧ cycle s = .next (s.raise .fetchOutOfBounds s.pc.toNat)) ∨
    (s.faulted = false ∧ s.fetchable ∧ ∃ i, s.decodedAtPc = .instr i ∧ cycle s = exec i s) ∨
    (s.faulted = false ∧ s.fetchable ∧ ∃ w, s.decodedAtPc = .unknown w ∧
      cycle s = .next (s.advance.emit (.unknownOpcode w s.pc))) := by
  unfold cycle State.decodedAtPc
  by_cases hf : s.faulted = true
  · exact .inl ⟨hf, by simp [hf]⟩
  · have hf' : s.faulted = false := by simpa using hf
    by_cases hx : s.fetchable
    · rw [if_neg hf, if_pos hx]
      cases hd : decodeWord s.params.strictDecode (s.fetch16 s.pc.toNat) with
      | instr i => exact .inr (.inr (.inl ⟨hf', hx, i, rfl, rfl⟩))
      | unknown w => exact .inr (.inr (.inr ⟨hf', hx, w, rfl, rfl⟩))
    · exact .inr (.inl ⟨hf', hx, by rw [if_neg hf, if_neg hx]⟩)

/-- A cycle always answers a next state, and leaves the host's side, the parameters and the keys. -/
theorem cycle_total (s : State) : ∃ t, cycle s = .next t ∧ KeepsHost s t := by
  obtain ⟨_, h⟩ | ⟨_, _, h⟩ | ⟨_, _, i, _, h⟩ | ⟨_, _, w, _, h⟩ := cycle_cases s
  · exact ⟨_, h, ⟨rfl, rfl, rfl, rfl, rfl⟩⟩
  · exact ⟨_, h, ⟨rfl, rfl, rfl, rfl, rfl⟩⟩
  · obtain ⟨t, ht, hk⟩ := exec_total i s
    exact ⟨t, h.trans ht, hk⟩
  · exact ⟨_, h, ⟨rfl, rfl, rfl, rfl, rfl⟩⟩

end Sys2Proof.Machine
end

