-- ==== Sys2Proof/Laws/Step.lean ====
section
/-! SUPPORT. What one step can do, said once: every invariant of the machine is a case analysis over
`StepCase`. -/

namespace Sys2Proof.Machine

/-- The ways a step leads from s to its next state. `rest` is what is left of the host's pending
operations. -/
inductive StepCase (s : State) : State → Prop where
  /-- A cycle ran, alone, for the host, or in a tick; its result may have been returned. -/
  | cycled (rest : List HostOp) (u : State) (b : Option Nat) (o : List Output)
      (hrest : ∀ op ∈ rest, op ∈ s.host) (hc : cycle { s with host := rest } = .next u)
      (hb : s.batch = none → b = none) :
      StepCase s { u with batch := b, out := u.out ++ o }
  /-- The timer step that ends a tick. -/
  | timers (rest : List HostOp) (i : Nat) (hrest : ∀ op ∈ rest, op ∈ s.host) (hb : s.batch = some i)
      (hi : s.params.cyclesPerTick ≤ i ∨ s.kwActive = true) :
      StepCase s (({ ({ s with host := rest } : State).timerStep with batch := none }).emit (.returned .ok))
  /-- A key event. -/
  | keyDown (k : Int) (rest : List HostOp) (hh : s.host = .setKeyDown k :: rest) :
      StepCase s (({ s with host := rest } : State).keyDown k)
  /-- A key event. -/
  | keyUp (k : Int) (rest : List HostOp) (hh : s.host = .setKeyUp k :: rest) :
      StepCase s (({ s with host := rest } : State).keyUp k)
  /-- The host's reset. -/
  | reset (rest : List HostOp) (hb : s.batch = none) (hh : s.host = .reset :: rest) :
      StepCase s ({ s with host := rest } : State).resetCore
  /-- The host's load. -/
  | load (bytes : List Byte) (rest : List HostOp) (hb : s.batch = none) (hh : s.host = .load bytes :: rest) :
      StepCase s (({ s with host := rest } : State).load bytes)
  /-- The host's restart, which becomes operations of its own. -/
  | restart (rest : List HostOp) (hb : s.batch = none) (hh : s.host = .restart :: rest) :
      StepCase s { s with host := s.restartOps ++ rest }
  /-- A step that touches no core state: a pass, the start of a tick, a halted tick. -/
  | noCore (rest : List HostOp) (b : Option Nat) (o : List Output) (hrest : ∀ op ∈ rest, op ∈ s.host) :
      StepCase s { s with host := rest, batch := b, out := s.out ++ o }

/-- A cycle with nothing added is a step's cycle. -/
theorem StepCase.of_cycle {s u : State} (rest : List HostOp) (hrest : ∀ op ∈ rest, op ∈ s.host)
    (hc : cycle { s with host := rest } = .next u) (hb : s.batch = none → u.batch = none) : StepCase s u := by
  have h := StepCase.cycled rest u u.batch [] hrest hc hb
  rwa [List.append_nil] at h

/-- A core step of a tick is a step. -/
theorem tickStep_case (s : State) (i : Nat) (rest : List HostOp) (hrest : ∀ op ∈ rest, op ∈ s.host)
    (hs : s.batch = some i) : ∃ t, tickStep i { s with host := rest } = .next t ∧ StepCase s t := by
  have hb : s.batch ≠ none := by rw [hs]; simp
  unfold tickStep
  split
  · obtain ⟨u, hu, _⟩ := cycle_total { s with host := rest }
    rw [hu]
    simp only [onNext]
    split
    · exact ⟨_, rfl, StepCase.cycled rest u none [_] hrest hu (fun h => absurd h hb)⟩
    · have h := StepCase.cycled rest u (some (i + 1)) [] hrest hu (fun h => absurd h hb)
      rw [List.append_nil] at h
      exact ⟨_, rfl, h⟩
  · rename_i hn
    refine ⟨_, rfl, StepCase.timers rest i hrest hs ?_⟩
    by_cases hk : s.kwActive = true
    · exact .inr hk
    · exact .inl (Nat.le_of_not_lt fun h => hn ⟨h, by simpa using hk⟩)

/-- A cycle the host invokes is a step. -/
theorem hostCycle_case (s : State) (rest : List HostOp) (hrest : ∀ op ∈ rest, op ∈ s.host)
    (hb : s.batch = none) : ∃ t, hostCycle { s with host := rest } = .next t ∧ StepCase s t := by
  unfold hostCycle
  obtain ⟨u, hu, hk⟩ := cycle_total { s with host := rest }
  rw [hu]
  have h := StepCase.cycled rest u u.batch [.returned (cycleResult { s with host := rest } u)] hrest hu
    (fun _ => hk.batch.trans hb)
  exact ⟨_, rfl, h⟩

/-- With no tick in progress and nothing pending, a step is a cycle. -/
theorem step_eq_cycle {s : State} (hb : s.batch = none) (hh : s.host = []) : step s = cycle s := by
  cases s; cases hb; cases hh; rfl

/-- With no tick in progress, a step is the next pending operation. -/
theorem step_eq_hostOp {s : State} {op : HostOp} {rest : List HostOp} (hb : s.batch = none)
    (hh : s.host = op :: rest) : step s = hostOp op { s with host := rest } := by
  cases s; cases hb; cases hh; rfl

/-- During a tick a key press comes first. -/
theorem step_eq_keyDown {s : State} {k : Int} {rest : List HostOp} (hh : s.host = .setKeyDown k :: rest) :
    step s = .next (({ s with host := rest } : State).keyDown k) := by
  cases s with | mk _ _ _ _ _ _ _ _ _ _ _ _ _ _ _ _ b => cases hh; cases b <;> rfl

/-- During a tick a key release comes first. -/
theorem step_eq_keyUp {s : State} {k : Int} {rest : List HostOp} (hh : s.host = .setKeyUp k :: rest) :
    step s = .next (({ s with host := rest } : State).keyUp k) := by
  cases s with | mk _ _ _ _ _ _ _ _ _ _ _ _ _ _ _ _ b => cases hh; cases b <;> rfl

/-- During a tick a pass lets the tick go on. -/
theorem step_eq_pass {s : State} {i : Nat} {rest : List HostOp} (hb : s.batch = some i)
    (hh : s.host = .pass :: rest) : step s = tickStep i { s with host := rest } := by
  cases s; cases hb; cases hh; rfl

/-- During a tick every other operation waits and the tick goes on. -/
theorem step_eq_tickStep {s : State} {i : Nat} (hb : s.batch = some i)
    (hh : ∀ op rest, s.host = op :: rest → (∀ k, op ≠ .setKeyDown k) ∧ (∀ k, op ≠ .setKeyUp k) ∧ op ≠ .pass) :
    step s = tickStep i s := by
  unfold step advanceMachine
  split <;> simp_all

/-- A step always answers a next state, and one of the cases of StepCase holds. -/
theorem step_cases (s : State) : ∃ t, step s = .next t ∧ StepCase s t := by
  have hsub : ∀ {op rest}, s.host = op :: rest → ∀ o ∈ rest, o ∈ s.host := by
    intro op rest h o ho; rw [h]; exact List.mem_cons_of_mem _ ho
  cases hb : s.batch with
  | none =>
    cases hh : s.host with
    | nil =>
      obtain ⟨u, hu, hk⟩ := cycle_total s
      exact ⟨u, (step_eq_cycle hb hh).trans hu,
        StepCase.of_cycle s.host (fun _ h => h) hu fun _ => hk.batch.trans hb⟩
    | cons op rest =>
      rw [step_eq_hostOp hb hh]
      cases op with
      | reset => exact ⟨_, rfl, StepCase.reset rest hb hh⟩
      | load bytes => exact ⟨_, rfl, StepCase.load bytes rest hb hh⟩
      | cycle => exact hostCycle_case s rest (hsub hh) hb
      | step => exact hostCycle_case s rest (hsub hh) hb
      | tick =>
        simp only [hostOp]
        split
        · exact ⟨_, rfl, StepCase.noCore rest s.batch [_] (hsub hh)⟩
        · have h := StepCase.noCore (s := s) rest (some 0) [] (hsub hh)
          rw [List.append_nil] at h
          exact ⟨_, rfl, h⟩
      | setKeyDown k => exact ⟨_, rfl, StepCase.keyDown k rest hh⟩
      | setKeyUp k => exact ⟨_, rfl, StepCase.keyUp k rest hh⟩
      | restart => exact ⟨_, rfl, StepCase.restart rest hb hh⟩
      | pass =>
        have h := StepCase.noCore (s := s) rest s.batch [] (hsub hh)
        rw [List.append_nil] at h
        exact ⟨_, rfl, h⟩
  | some i =>
    cases hh : s.host with
    | nil => rw [step_eq_tickStep hb (by simp [hh])]; exact tickStep_case s i s.host (fun _ h => h) hb
    | cons op rest =>
      cases op with
      | setKeyDown k => exact ⟨_, step_eq_keyDown hh, StepCase.keyDown k rest hh⟩
      | setKeyUp k => exact ⟨_, step_eq_keyUp hh, StepCase.keyUp k rest hh⟩
      | pass => rw [step_eq_pass hb hh]; exact tickStep_case s i rest (hsub hh) hb
      | _ =>
        rw [step_eq_tickStep hb (by
          intro op rest h
          rw [hh] at h
          simp only [List.cons.injEq] at h
          rw [← h.1]
          exact ⟨fun _ => HostOp.noConfusion, fun _ => HostOp.noConfusion, HostOp.noConfusion⟩)]
        exact tickStep_case s i s.host (fun _ h => h) hb

end Sys2Proof.Machine
end

