-- ==== Sys2Proof/Laws/Frame.lean ====
section
/-! SUPPORT. What an instruction leaves alone, said once for all instructions, and what a cycle can do. -/

namespace Sys2Proof.Machine

/-- An instruction changes no general register but those it writes (R32). -/
theorem exec_writesReg {i : Instr} {s t : State} {r : Reg} (h : exec i s = .next t)
    (hn : t.readV r ≠ s.readV r) : writesReg i r = true := by
  have key : ∀ (x : Reg) (b : Byte) (u : State), u.v = s.v → (u.setV x b).readV r ≠ s.readV r → r = x := by
    intro x b u hu hne
    by_contra hx
    apply hne
    have : x.val ≠ r.val := fun h => hx (Fin.ext h.symm)
    simp [State.readV, hu, this]
  have keyw : ∀ (x : Reg) (a b : Byte), (s.advance.writeback x a b).readV r ≠ s.readV r → r = x ∨ r = 15 := by
    intro x a b hne
    by_contra hx
    push Not at hx
    apply hne
    have : x.val ≠ r.val := fun h => hx.1 (Fin.ext h.symm)
    have : (15:Nat) ≠ r.val := fun h => hx.2 (Fin.ext h.symm)
    rw [State.writeback_eq]
    simp only [State.readV]
    split <;> simp [*]
  have skip : ∀ b, (s.skipIf b).readV r = s.readV r := by intro b; cases b <;> rfl
  cases i
  case seImm => cases h; exact absurd (skip _) hn
  case sneImm => cases h; exact absurd (skip _) hn
  case seReg => cases h; exact absurd (skip _) hn
  case sneReg => cases h; exact absurd (skip _) hn
  case ldImm => cases h; simp [writesReg, key _ _ _ rfl hn]
  case addImm => cases h; simp [writesReg, key _ _ _ rfl hn]
  case ldReg => cases h; simp [writesReg, key _ _ _ rfl hn]
  case orReg => cases h; simp [writesReg, key _ _ _ rfl hn]
  case andReg => cases h; simp [writesReg, key _ _ _ rfl hn]
  case xorReg => cases h; simp [writesReg, key _ _ _ rfl hn]
  case rnd => cases h; simp [writesReg, key _ _ (s.drawByte.2.advance) rfl hn]
  case ldVxDt => cases h; simp [writesReg, key _ _ _ rfl hn]
  case addReg => cases h; simpa [writesReg, Reg.vf] using keyw _ _ _ hn
  case sub => cases h; simpa [writesReg, Reg.vf] using keyw _ _ _ hn
  case shr => cases h; simpa [writesReg, Reg.vf] using keyw _ _ _ hn
  case subn => cases h; simpa [writesReg, Reg.vf] using keyw _ _ _ hn
  case shl => cases h; simpa [writesReg, Reg.vf] using keyw _ _ _ hn
  case ret =>
    simp only [exec, execRet] at h
    split at h
    · cases h; exact absurd rfl hn
    · rename_i hp; obtain ⟨_, _, rfl⟩ := State.pop_eq_some hp; cases h; exact absurd rfl hn
  case call =>
    simp only [exec, execCall] at h
    split at h
    · cases h; exact absurd rfl hn
    · rename_i hp; obtain ⟨_, rfl⟩ := State.push_eq_some hp; cases h; exact absurd rfl hn
  case drw =>
    simp only [exec, execDrw] at h
    split at h
    · cases h; exact absurd rfl hn
    · cases h
      have := key Reg.vf _ _ (by rfl) hn
      simp [writesReg, this]
  case skp =>
    simp only [exec, execSkp] at h
    split at h
    · cases h; exact absurd rfl hn
    · cases h; exact absurd (skip _) hn
  case sknp =>
    simp only [exec, execSknp] at h
    split at h
    · cases h; exact absurd rfl hn
    · cases h; exact absurd (skip _) hn
  case ldB =>
    simp only [exec, execLdB] at h
    split at h
    · cases h; exact absurd rfl hn
    · cases h; rw [State.storeBytes_frame] at hn; exact absurd rfl hn
  case ldMemStore =>
    simp only [exec, execLdMemStore] at h
    split at h
    · cases h; exact absurd rfl hn
    · cases h; rw [State.storeBytes_frame] at hn; exact absurd rfl hn
  case ldMemLoad x =>
    simp only [exec, execLdMemLoad] at h
    split at h
    · cases h; exact absurd rfl hn
    · cases h
      simp only [writesReg, decide_eq_true_eq]
      by_contra hx
      apply hn
      simp only [State.readV, State.loadBlock, State.advanceI, State.advance, Vector.getElem_ofFn]
      exact if_neg hx
  all_goals (cases h; exact absurd rfl hn)

/-- What an instruction leaves alone, besides what KeepsHost says and the general registers. -/
structure ExecFrame (i : Instr) (s t : State) : Prop where
  dt : t.dt ≠ s.dt → ∃ x, i = .ldDt x
  st : t.st ≠ s.st → ∃ x, i = .ldSt x
  out : t.out = s.out
  fb : t.fb ≠ s.fb → writesFb i = true
  mem : t.mem ≠ s.mem → writesMem i = true
  stack : t.stack ≠ s.stack ∨ t.sp ≠ s.sp → usesStack i = true
  /-- The key-wait latch is set by Fx0A alone, which leaves pc, memory and the fault latch. -/
  wait : t.kwActive = true → s.kwActive = true ∧ t.kwReg = s.kwReg ∨
    i = .ldK t.kwReg ∧ t.fault = s.fault ∧ t.pc = s.pc ∧ t.mem = s.mem
  /-- pc and the saved return addresses stay near memory (R144). -/
  pc : s.pc.toNat + 1 < 4096 → (∀ j : Fin 16, s.stack[j.val].toNat ≤ 0x1000) →
    t.pc.toNat ≤ 0x10FE ∧ ∀ j : Fin 16, t.stack[j.val].toNat ≤ 0x1000
  /-- Memory keeps its canonical form. -/
  wf : s.memOk → t.memOk

/-- A skip, taken or not. -/
theorem ExecFrame.skipIf (i) (s : State) (b : Bool) : ExecFrame i s (s.skipIf b) := by
  refine ⟨?_, ?_, ?_, ?_, ?_, ?_, ?_, ?_, ?_⟩ <;> cases b <;> simp [State.skipIf, State.advance]
  all_goals first | (intro h; exact .inl h) | (intro h1 h2; refine ⟨?_, h2⟩; have := s.pc.isLt; omega)

/-- A fatal condition. -/
theorem ExecFrame.raise (i) (s : State) (k n) : ExecFrame i s (s.raise k n) := by
  refine ⟨?_, ?_, ?_, ?_, ?_, ?_, ?_, ?_, ?_⟩ <;> simp [State.raise]
  · intro h; exact .inl h
  · intro h1 h2; exact ⟨by omega, h2⟩

/-- A state that differs in general registers, I and the advance of pc only. -/
theorem ExecFrame.of_eq (i) (s t : State) (h1 : t.dt = s.dt) (h2 : t.st = s.st) (h3 : t.out = s.out)
    (h4 : t.fb = s.fb) (h5 : t.mem = s.mem) (h6 : t.stack = s.stack) (h7 : t.sp = s.sp)
    (h8 : t.kwActive = s.kwActive) (h9 : t.kwReg = s.kwReg) (h10 : t.pc = s.pc + 2)
    (h11 : t.params = s.params) : ExecFrame i s t := by
  refine ⟨?_, ?_, ?_, ?_, ?_, ?_, ?_, ?_, ?_⟩ <;> simp_all [State.memOk]
  · intro h1 h2; have := s.pc.isLt; omega

/-- The write of a result and a flag. -/
theorem ExecFrame.writeback (i) (s : State) (x a b) : ExecFrame i s (s.advance.writeback x a b) := by
  rw [State.writeback_eq]; exact ExecFrame.of_eq _ _ _ rfl rfl rfl rfl rfl rfl rfl rfl rfl rfl rfl

/-- What an instruction leaves alone. -/
theorem exec_frame {i : Instr} {s t : State} (h : exec i s = .next t) : ExecFrame i s t := by
  cases i
  case seImm => cases h; exact ExecFrame.skipIf _ _ _
  case sneImm => cases h; exact ExecFrame.skipIf _ _ _
  case seReg => cases h; exact ExecFrame.skipIf _ _ _
  case sneReg => cases h; exact ExecFrame.skipIf _ _ _
  case addReg => cases h; exact ExecFrame.writeback _ _ _ _ _
  case sub => cases h; exact ExecFrame.writeback _ _ _ _ _
  case shr => cases h; exact ExecFrame.writeback _ _ _ _ _
  case subn => cases h; exact ExecFrame.writeback _ _ _ _ _
  case shl => cases h; exact ExecFrame.writeback _ _ _ _ _
  case cls =>
    cases h
    refine ⟨?_, ?_, ?_, ?_, ?_, ?_, ?_, ?_, ?_⟩ <;> simp [State.advance, writesFb]
    · intro h1 h2; exact ⟨by have := s.pc.isLt; omega, h2⟩
  case jp n =>
    cases h
    refine ⟨?_, ?_, ?_, ?_, ?_, ?_, ?_, ?_, ?_⟩ <;> simp [State.advance, State.setPc, zext16]
    · intro h1 h2; exact ⟨by have := n.isLt; omega, h2⟩
  case jpV0 n =>
    cases h
    refine ⟨?_, ?_, ?_, ?_, ?_, ?_, ?_, ?_, ?_⟩ <;> simp [State.advance, State.setPc, offsetTarget]
    · intro h1 h2; exact ⟨by have := n.isLt; have := (s.readV 0).isLt; simp only [State.readV] at *;  omega, h2⟩
  case ret =>
    simp only [exec, execRet] at h
    split at h
    · cases h; exact ExecFrame.raise _ _ _ _
    · rename_i hp; obtain ⟨_, rfl, rfl⟩ := State.pop_eq_some hp; cases h
      refine ⟨?_, ?_, ?_, ?_, ?_, ?_, ?_, ?_, ?_⟩ <;> simp [State.advance, State.setPc, usesStack]
      · intro h1 h2
        refine ⟨?_, h2⟩
        have := h2 ⟨s.sp.val - 1, by omega⟩
        simp only at this
        omega
  case call n =>
    simp only [exec, execCall] at h
    split at h
    · cases h; exact ExecFrame.raise _ _ _ _
    · rename_i hp; obtain ⟨_, rfl⟩ := State.push_eq_some hp; cases h
      refine ⟨?_, ?_, ?_, ?_, ?_, ?_, ?_, ?_, ?_⟩ <;> simp [State.advance, State.setPc, usesStack, zext16]
      · intro h1 h2
        refine ⟨by have := n.isLt; omega, ?_⟩
        intro j
        rw [Vector.getElem_set]
        split
        · simp only [BitVec.toNat_add]; have : (2#16).toNat = 2 := rfl; omega
        · exact h2 j
  case drw =>
    simp only [exec, execDrw] at h
    split at h
    · cases h; exact ExecFrame.raise _ _ _ _
    · cases h
      refine ⟨?_, ?_, ?_, ?_, ?_, ?_, ?_, ?_, ?_⟩ <;> simp [State.advance, State.setV, writesFb]
      · intro h1 h2; exact ⟨by have := s.pc.isLt; omega, h2⟩
  case skp =>
    simp only [exec, execSkp] at h
    split at h
    · cases h; exact ExecFrame.raise _ _ _ _
    · cases h; exact ExecFrame.skipIf _ _ _
  case sknp =>
    simp only [exec, execSknp] at h
    split at h
    · cases h; exact ExecFrame.raise _ _ _ _
    · cases h; exact ExecFrame.skipIf _ _ _
  case ldB =>
    simp only [exec, execLdB] at h
    split at h
    · cases h; exact ExecFrame.raise _ _ _ _
    · cases h
      have hw := fun hm => State.storeBytes_wf (s := s.advance) (a := s.iReg.toNat) (bs := bcdDigits (s.readV ‹_›)) hm
      rw [State.storeBytes_frame]
      refine ⟨?_, ?_, ?_, ?_, ?_, ?_, ?_, ?_, hw⟩ <;> simp [State.advance, writesMem]
      · intro h1 h2; exact ⟨by have := s.pc.isLt; omega, h2⟩
  case ldMemStore x =>
    simp only [exec, execLdMemStore] at h
    split at h
    · cases h; exact ExecFrame.raise _ _ _ _
    · cases h
      have hw := fun hm => State.storeBytes_wf (s := s.advance) (a := s.iReg.toNat) (bs := s.regBlock x) hm
      rw [State.storeBytes_frame]
      refine ⟨?_, ?_, ?_, ?_, ?_, ?_, ?_, ?_, hw⟩ <;> simp [State.advance, State.advanceI, writesMem]
      · intro h1 h2; exact ⟨by have := s.pc.isLt; omega, h2⟩
  case ldMemLoad x =>
    simp only [exec, execLdMemLoad] at h
    split at h
    · cases h; exact ExecFrame.raise _ _ _ _
    · cases h; apply ExecFrame.of_eq <;> simp
  case ldK x =>
    cases h
    refine ⟨?_, ?_, ?_, ?_, ?_, ?_, ?_, ?_, ?_⟩ <;> simp [State.advance]
    · intro h1 h2; exact ⟨by omega, h2⟩
  case ldDt x =>
    cases h
    refine ⟨?_, ?_, ?_, ?_, ?_, ?_, ?_, ?_, ?_⟩ <;> simp [State.advance]
    · intro h1 h2; exact ⟨by have := s.pc.isLt; omega, h2⟩
  case ldSt x =>
    cases h
    refine ⟨?_, ?_, ?_, ?_, ?_, ?_, ?_, ?_, ?_⟩ <;> simp [State.advance]
    · intro h1 h2; exact ⟨by have := s.pc.isLt; omega, h2⟩
  all_goals (cases h; apply ExecFrame.of_eq <;> rfl)

/-- What a cycle can do: nothing, a fetch fault, an instruction, or an UNKNOWN word. -/
theorem cycle_spec {s u : State} (h : cycle s = .next u) :
    u = s ∨
    (¬s.fetchable ∧ s.faulted = false ∧ u = s.raise .fetchOutOfBounds s.pc.toNat) ∨
    (s.fetchable ∧ s.faulted = false ∧ ∃ i, s.decodedAtPc = .instr i ∧ exec i s = .next u) ∨
    (s.fetchable ∧ s.faulted = false ∧ ∃ w, s.decodedAtPc = .unknown w ∧
      u = s.advance.emit (.unknownOpcode w s.pc)) := by
  obtain ⟨_, h'⟩ | ⟨hf, hx, h'⟩ | ⟨hf, hx, i, hd, h'⟩ | ⟨hf, hx, w, hd, h'⟩ := cycle_cases s
  · rw [h] at h'; cases h'; exact .inl rfl
  · rw [h] at h'; cases h'; exact .inr (.inl ⟨hx, hf, rfl⟩)
  · exact .inr (.inr (.inl ⟨hx, hf, i, hd, h'.symm.trans h⟩))
  · rw [h] at h'; cases h'; exact .inr (.inr (.inr ⟨hx, hf, w, hd, rfl⟩))

end Sys2Proof.Machine
end

