-- ==== Sys2Proof/Laws/PerInstr.lean ====
section
/-! SUPPORT. The family TableRow, one lemma per constructor: every instruction is well-formed, and the
word the encoder gives it has the bits its row of spec/opcode_table.json fixes. -/

namespace Sys2Proof.Laws

/-- Bits 15..12 of a word are its upper part, as the mask 0xF000 keeps it. -/
theorem and_f000 (w : Word) : w &&& 0xF000 = BitVec.ofNat 16 (w.toNat / 4096 * 4096) := by
  apply BitVec.eq_of_getLsbD_eq
  intro k hk
  have h1 : w.toNat / 4096 * 4096 = (w.toNat >>> 12) <<< 12 := by
    rw [Nat.shiftRight_eq_div_pow, Nat.shiftLeft_eq]
  rw [h1, BitVec.getLsbD_and, BitVec.getLsbD_ofNat, Nat.testBit_shiftLeft, Nat.testBit_shiftRight]
  interval_cases k <;> simp [BitVec.getLsbD] <;> (intros; decide)

/-- The low n bits of a word, as the mask 2^n - 1 keeps them. -/
theorem and_low (w : Word) (n : Nat) (hn : n ≤ 16) :
    w &&& BitVec.ofNat 16 (2 ^ n - 1) = BitVec.ofNat 16 (w.toNat % 2 ^ n) := by
  apply BitVec.eq_of_toNat_eq
  have h1 : 2 ^ n ≤ 2 ^ 16 := Nat.pow_le_pow_right (by decide) hn
  have h2 : 2 ^ n - 1 < 2 ^ 16 := by have := Nat.two_pow_pos n; omega
  have h3 : w.toNat % 2 ^ n < 2 ^ 16 := Nat.lt_of_lt_of_le (Nat.mod_lt _ (Nat.two_pow_pos n)) h1
  rw [BitVec.toNat_and, BitVec.toNat_ofNat, BitVec.toNat_ofNat, Nat.mod_eq_of_lt h2, Nat.mod_eq_of_lt h3,
    Nat.and_two_pow_sub_one_eq_mod]

/-- A word keeps, under a mask of its upper nibble and its low n bits, just those parts. -/
theorem and_row (w : Word) (op lo n : Nat) (hn : n ≤ 16) (h1 : w.toNat / 4096 = op) (h2 : w.toNat % 2 ^ n = lo) :
    w &&& (0xF000 ||| BitVec.ofNat 16 (2 ^ n - 1)) = BitVec.ofNat 16 (op * 4096) ||| BitVec.ofNat 16 lo := by
  rw [BitVec.and_or_distrib_left, and_f000, and_low w n hn, h1, h2]

/-- A word under the mask 0xF000, by its upper nibble. -/
theorem and_op (w : Word) (op : Nat) (h : w.toNat / 4096 = op) : w &&& 0xF000 = BitVec.ofNat 16 (op * 4096) := by
  rw [and_f000, h]

/-- The value of an NNN word. -/
theorem toNat_encNnn (op : Nat) (nnn : Addr12) (hop : op < 16) :
    (encNnn op nnn).toNat = op * 4096 + nnn.toNat := by
  have := nnn.isLt
  rw [encNnn, BitVec.toNat_ofNat, Nat.mod_eq_of_lt (by omega)]

/-- The value of an XKK word. -/
theorem toNat_encXkk (op : Nat) (x : Reg) (kk : Byte) (hop : op < 16) :
    (encXkk op x kk).toNat = op * 4096 + x.val * 256 + kk.toNat := by
  have := kk.isLt
  have := x.isLt
  rw [encXkk, BitVec.toNat_ofNat, Nat.mod_eq_of_lt (by omega)]

/-- The value of a word given by its nibbles. -/
theorem toNat_nibbles {a b c d : Nat} (ha : a < 16) (hb : b < 16) (hc : c < 16) (hd : d < 16) :
    (nibbles a b c d).toNat = a * 4096 + b * 256 + c * 16 + d := by
  rw [nibbles, BitVec.toNat_ofNat, Nat.mod_eq_of_lt (by omega)]

/-- The family: an instruction is well-formed, and its word matches its row of the table. -/
def TableRow.Statement (i : Instr) : Prop :=
  i.wellFormed = true ∧ encode i &&& (tableRow i).1 = (tableRow i).2

/-- The row of an NNN instruction. -/
theorem nnn_row (op : Nat) (nnn : Addr12) (hop : op < 16) :
    encNnn op nnn &&& 0xF000 = BitVec.ofNat 16 (op * 4096) :=
  and_op _ op (by have := nnn.isLt; rw [toNat_encNnn op nnn hop]; omega)

/-- The row of an XKK instruction. -/
theorem xkk_row (op : Nat) (x : Reg) (kk : Byte) (hop : op < 16) :
    encXkk op x kk &&& 0xF000 = BitVec.ofNat 16 (op * 4096) :=
  and_op _ op (by have := kk.isLt; have := x.isLt; rw [toNat_encXkk op x kk hop]; omega)

/-- The row of an XYF instruction, whose last nibble is fixed. -/
theorem xyf_row (op d : Nat) (x y : Reg) (hop : op < 16) (hd : d < 16) :
    nibbles op x y d &&& 0xF00F = BitVec.ofNat 16 (op * 4096) ||| BitVec.ofNat 16 d :=
  and_row _ op d 4 (by decide) (by rw [toNat_nibbles hop x.isLt y.isLt hd]; omega)
    (by rw [toNat_nibbles hop x.isLt y.isLt hd]; omega)

/-- The row of an XF instruction, whose last byte is fixed. -/
theorem xf_row (op c d : Nat) (x : Reg) (hop : op < 16) (hc : c < 16) (hd : d < 16) :
    nibbles op x c d &&& 0xF0FF = BitVec.ofNat 16 (op * 4096) ||| BitVec.ofNat 16 (c * 16 + d) :=
  and_row _ op (c * 16 + d) 8 (by decide) (by rw [toNat_nibbles hop x.isLt hc hd]; omega)
    (by rw [toNat_nibbles hop x.isLt hc hd]; omega)

/-- A register index fits its field. -/
theorem regFits_val (x : Reg) : regFits x.val = true := by simp [regFits]

/-- A byte fits its field. -/
theorem immFits_toNat (kk : Byte) : immFits kk.toNat = true := by simp [immFits, kk.isLt]

/-- A 12-bit address fits its field. -/
theorem addrFits_toNat (nnn : Addr12) : addrFits nnn.toNat = true := by simp [addrFits, nnn.isLt]

/-- A row count fits its field. -/
theorem countFits_val (n : Fin 16) : countFits n.val = true := by simp [countFits]

theorem TableRow.cls : TableRow.Statement (.cls) :=
  ⟨rfl, by decide⟩

theorem TableRow.ret : TableRow.Statement (.ret) :=
  ⟨rfl, by decide⟩

theorem TableRow.jp (nnn : Addr12) : TableRow.Statement (.jp nnn) :=
  ⟨addrFits_toNat nnn, nnn_row 1 nnn (by decide)⟩

theorem TableRow.call (nnn : Addr12) : TableRow.Statement (.call nnn) :=
  ⟨addrFits_toNat nnn, nnn_row 2 nnn (by decide)⟩

theorem TableRow.seImm (x : Reg) (kk : Byte) : TableRow.Statement (.seImm x kk) :=
  ⟨by simp [Instr.wellFormed, regFits_val, immFits_toNat], xkk_row 3 x kk (by decide)⟩

theorem TableRow.sneImm (x : Reg) (kk : Byte) : TableRow.Statement (.sneImm x kk) :=
  ⟨by simp [Instr.wellFormed, regFits_val, immFits_toNat], xkk_row 4 x kk (by decide)⟩

theorem TableRow.seReg (x y : Reg) : TableRow.Statement (.seReg x y) :=
  ⟨by simp [Instr.wellFormed, regFits_val], xyf_row 5 0 x y (by decide) (by decide)⟩

theorem TableRow.ldImm (x : Reg) (kk : Byte) : TableRow.Statement (.ldImm x kk) :=
  ⟨by simp [Instr.wellFormed, regFits_val, immFits_toNat], xkk_row 6 x kk (by decide)⟩

theorem TableRow.addImm (x : Reg) (kk : Byte) : TableRow.Statement (.addImm x kk) :=
  ⟨by simp [Instr.wellFormed, regFits_val, immFits_toNat], xkk_row 7 x kk (by decide)⟩

theorem TableRow.ldReg (x y : Reg) : TableRow.Statement (.ldReg x y) :=
  ⟨by simp [Instr.wellFormed, regFits_val], xyf_row 8 0 x y (by decide) (by decide)⟩

theorem TableRow.orReg (x y : Reg) : TableRow.Statement (.orReg x y) :=
  ⟨by simp [Instr.wellFormed, regFits_val], xyf_row 8 1 x y (by decide) (by decide)⟩

theorem TableRow.andReg (x y : Reg) : TableRow.Statement (.andReg x y) :=
  ⟨by simp [Instr.wellFormed, regFits_val], xyf_row 8 2 x y (by decide) (by decide)⟩

theorem TableRow.xorReg (x y : Reg) : TableRow.Statement (.xorReg x y) :=
  ⟨by simp [Instr.wellFormed, regFits_val], xyf_row 8 3 x y (by decide) (by decide)⟩

theorem TableRow.addReg (x y : Reg) : TableRow.Statement (.addReg x y) :=
  ⟨by simp [Instr.wellFormed, regFits_val], xyf_row 8 4 x y (by decide) (by decide)⟩

theorem TableRow.sub (x y : Reg) : TableRow.Statement (.sub x y) :=
  ⟨by simp [Instr.wellFormed, regFits_val], xyf_row 8 5 x y (by decide) (by decide)⟩

theorem TableRow.shr (x y : Reg) : TableRow.Statement (.shr x y) :=
  ⟨by simp [Instr.wellFormed, regFits_val], xyf_row 8 6 x y (by decide) (by decide)⟩

theorem TableRow.subn (x y : Reg) : TableRow.Statement (.subn x y) :=
  ⟨by simp [Instr.wellFormed, regFits_val], xyf_row 8 7 x y (by decide) (by decide)⟩

theorem TableRow.shl (x y : Reg) : TableRow.Statement (.shl x y) :=
  ⟨by simp [Instr.wellFormed, regFits_val], xyf_row 8 14 x y (by decide) (by decide)⟩

theorem TableRow.sneReg (x y : Reg) : TableRow.Statement (.sneReg x y) :=
  ⟨by simp [Instr.wellFormed, regFits_val], xyf_row 9 0 x y (by decide) (by decide)⟩

theorem TableRow.ldI (nnn : Addr12) : TableRow.Statement (.ldI nnn) :=
  ⟨addrFits_toNat nnn, nnn_row 10 nnn (by decide)⟩

theorem TableRow.jpV0 (nnn : Addr12) : TableRow.Statement (.jpV0 nnn) :=
  ⟨addrFits_toNat nnn, nnn_row 11 nnn (by decide)⟩

theorem TableRow.rnd (x : Reg) (kk : Byte) : TableRow.Statement (.rnd x kk) :=
  ⟨by simp [Instr.wellFormed, regFits_val, immFits_toNat], xkk_row 12 x kk (by decide)⟩

theorem TableRow.drw (x y : Reg) (n : Fin 16) : TableRow.Statement (.drw x y n) :=
  ⟨by simp [Instr.wellFormed, regFits_val, countFits_val], and_op _ 13 (by
    have := x.isLt
    have := y.isLt
    have := n.isLt
    rw [encode, toNat_nibbles (by decide) x.isLt y.isLt n.isLt]; omega)⟩

theorem TableRow.skp (x : Reg) : TableRow.Statement (.skp x) :=
  ⟨regFits_val x, xf_row 14 9 14 x (by decide) (by decide) (by decide)⟩

theorem TableRow.sknp (x : Reg) : TableRow.Statement (.sknp x) :=
  ⟨regFits_val x, xf_row 14 10 1 x (by decide) (by decide) (by decide)⟩

theorem TableRow.ldVxDt (x : Reg) : TableRow.Statement (.ldVxDt x) :=
  ⟨regFits_val x, xf_row 15 0 7 x (by decide) (by decide) (by decide)⟩

theorem TableRow.ldK (x : Reg) : TableRow.Statement (.ldK x) :=
  ⟨regFits_val x, xf_row 15 0 10 x (by decide) (by decide) (by decide)⟩

theorem TableRow.ldDt (x : Reg) : TableRow.Statement (.ldDt x) :=
  ⟨regFits_val x, xf_row 15 1 5 x (by decide) (by decide) (by decide)⟩

theorem TableRow.ldSt (x : Reg) : TableRow.Statement (.ldSt x) :=
  ⟨regFits_val x, xf_row 15 1 8 x (by decide) (by decide) (by decide)⟩

theorem TableRow.addI (x : Reg) : TableRow.Statement (.addI x) :=
  ⟨regFits_val x, xf_row 15 1 14 x (by decide) (by decide) (by decide)⟩

theorem TableRow.ldF (x : Reg) : TableRow.Statement (.ldF x) :=
  ⟨regFits_val x, xf_row 15 2 9 x (by decide) (by decide) (by decide)⟩

theorem TableRow.ldB (x : Reg) : TableRow.Statement (.ldB x) :=
  ⟨regFits_val x, xf_row 15 3 3 x (by decide) (by decide) (by decide)⟩

theorem TableRow.ldMemStore (x : Reg) : TableRow.Statement (.ldMemStore x) :=
  ⟨regFits_val x, xf_row 15 5 5 x (by decide) (by decide) (by decide)⟩

theorem TableRow.ldMemLoad (x : Reg) : TableRow.Statement (.ldMemLoad x) :=
  ⟨regFits_val x, xf_row 15 6 5 x (by decide) (by decide) (by decide)⟩

end Sys2Proof.Laws
end

