-- ==== Sys2Proof/Tests/Slice0.lean ====
section
/-! SUPPORT. Small tests and witnesses. A test's expected result comes from spec/95_test_vectors.md,
whose vector its docstring names, or from the rule it names. A witness shows that the hypotheses of an
obligation, or of one clause of it, are met together. -/

namespace Sys2Proof.Machine.Tests

/-- A field of the next state. -/
def after {α : Type} (f : State → α) (o : StepOutcome) : Option α :=
  match o with
  | .next t => some (f t)
  | .fault _ => none
  | .refused _ => none

/-- The reset state with some registers set. -/
def regs (l : List (Reg × Byte)) : State := l.foldl (fun s p => s.setV p.1 p.2) State.reset

/-- The reset state with one parameter changed. -/
def withParams (f : Params → Params) (s : State) : State := { s with params := f s.params }

def lax (p : Params) : Params := { p with strictDecode := false }
def resultLast (p : Params) : Params := { p with vfFlagLast := false }
def mask4 (p : Params) : Params := { p with keyIndexPolicy := .mask4 }

/-- One step that fetches and runs the word. -/
def run (s : State) (w : Nat) : StepOutcome := step (s.withFetchWord 16 w)

/-- One host operation on a state. -/
def op (o : HostOp) (s : State) : StepOutcome := step { s with host := [o] }

/-- K5's state: `FF0A` at 0x0200 has been run. -/
def waiting : State := { State.reset.withFetchWord 16 0xFF0A with kwActive := true, kwReg := 15 }

/-- A core with a latched fault. -/
def faultedCore : State := State.reset.raise .stackUnderflow 0x0208

/-- A core at a jump to itself, `1200` at 0x0200. -/
def idle : State := State.reset.withFetchWord 16 0x1200

/-! ### Well-formedness: each check refuses a number that does not fit -/

theorem test_wellFormed_refuses_register : regFits 16 = false ∧ regFits 15 = true := by decide
theorem test_wellFormed_refuses_count : countFits 16 = false ∧ countFits 15 = true := by decide
theorem test_wellFormed_refuses_immediate : immFits 256 = false ∧ immFits 255 = true := by decide
theorem test_wellFormed_refuses_address : addrFits 4096 = false ∧ addrFits 4095 = true := by decide

/-! ### Decoding: words written out from spec/30_encoding.md R105 to R110 -/

theorem test_decode_control :
    [0x00E0, 0x00EE, 0x12A0, 0x2345, 0x3312, 0x4312, 0x5120, 0x9120, 0xB3FF].map (decodeWord true) =
      [.instr .cls, .instr .ret, .instr (.jp 0x2A0), .instr (.call 0x345), .instr (.seImm 3 0x12),
       .instr (.sneImm 3 0x12), .instr (.seReg 1 2), .instr (.sneReg 1 2), .instr (.jpV0 0x3FF)] := by decide

theorem test_decode_alu :
    [0x6A05, 0x7BFF, 0x8120, 0x8341, 0x8562, 0x8783, 0x89A4, 0x8BC5].map (decodeWord true) =
      [.instr (.ldImm 10 0x05), .instr (.addImm 11 0xFF), .instr (.ldReg 1 2), .instr (.orReg 3 4),
       .instr (.andReg 5 6), .instr (.xorReg 7 8), .instr (.addReg 9 10), .instr (.sub 11 12)] := by decide

theorem test_decode_alu_more :
    [0x8DE6, 0x8F07, 0x812E, 0xC30F].map (decodeWord true) =
      [.instr (.shr 13 14), .instr (.subn 15 0), .instr (.shl 1 2), .instr (.rnd 3 0x0F)] := by decide

theorem test_decode_memory :
    [0xA250, 0xFF1E, 0xF129, 0xF233, 0xF355, 0xF465].map (decodeWord true) =
      [.instr (.ldI 0x250), .instr (.addI 15), .instr (.ldF 1), .instr (.ldB 2), .instr (.ldMemStore 3),
       .instr (.ldMemLoad 4)] := by decide

theorem test_decode_devices :
    [0xD125, 0xE29E, 0xE3A1, 0xF407, 0xF50A, 0xF615, 0xF718].map (decodeWord true) =
      [.instr (.drw 1 2 5), .instr (.skp 2), .instr (.sknp 3), .instr (.ldVxDt 4), .instr (.ldK 5),
       .instr (.ldDt 6), .instr (.ldSt 7)] := by decide

/-- R111, R114: UNKNOWN words, and the words of DECODE_AMBIGUOUS under the lax decoder. -/
theorem test_decode_unknown :
    [0x0000, 0x0123, 0x01E0, 0x5121, 0x912F, 0x8018, 0xE000, 0xF0FF].map (decodeWord true) =
      [.unknown 0x0000, .unknown 0x0123, .unknown 0x01E0, .unknown 0x5121, .unknown 0x912F,
       .unknown 0x8018, .unknown 0xE000, .unknown 0xF0FF] ∧
    [0x0000, 0x01E0, 0x03EE, 0x5121, 0x912F, 0x8018].map (decodeWord false) =
      [.unknown 0x0000, .instr .cls, .instr .ret, .instr (.seReg 1 2), .instr (.sneReg 1 2),
       .unknown 0x8018] := by decide

theorem test_decode_bytes :
    decodeBytes true [0xD1, 0x25, 0x60] = .inr (.drw 1 2 5, [0x60]) ∧
    decodeBytes true [0xF0, 0xFF] = .inl (.unknownWord 0xF0FF) ∧ decodeBytes true [0xD1] = .inl .tooShort := by
  decide

theorem test_encode :
    encode (.drw 1 2 5) = 0xD125 ∧ encode (.jp 0x2A0) = 0x12A0 ∧ encode (.ldMemLoad 2) = 0xF265 := by decide

/-! ### Fetch and the cycle -/

/-- F1: 0x0FFE is the last fetchable address. -/
theorem test_fetch_last_address :
    after (fun t => (t.readV 0, t.pc)) (run { State.reset with pc := 0x0FFE } 0x6001) = some (1, 0x1000) := by
  decide

/-- F2, F3: FETCH_OUT_OF_BOUNDS. -/
theorem test_fetch_past_memory :
    after (fun t => (t.fault, t.pc)) (step { State.reset with pc := 0x0FFF }) =
      some (⟨.fetchOutOfBounds, 0x0FFF⟩, 0x0FFF) ∧
    after (fun t => (t.fault, t.pc)) (step { State.reset with pc := 0x10FE }) =
      some (⟨.fetchOutOfBounds, 0x10FE⟩, 0x10FE) := by decide

/-- F4: an odd pc. -/
theorem test_fetch_odd_address :
    after (fun t => (t.readV 0, t.pc)) (run { State.reset with pc := 0x0201 } 0x6042) = some (0x42, 0x0203) := by
  decide

/-- F5, F7: UnknownOpcode. -/
theorem test_unknown_reports :
    after (fun t => (t.out, t.pc)) (step State.reset) = some ([.unknownOpcode 0x0000 0x0200], 0x0202) ∧
    after (fun t => (t.out, t.pc)) (run State.reset 0x01E0) = some ([.unknownOpcode 0x01E0 0x0200], 0x0202) := by
  decide

/-- F12, T8: a faulted core is halted. -/
theorem test_halted :
    after id (step faultedCore) = some faultedCore ∧
    after (·.out) (op .tick faultedCore) = some [.returned (.halted .stackUnderflow 0x0208)] := by decide

/-- R320, R48: the codes of the conditions. -/
theorem test_fault_codes :
    [FaultKind.none, .fetchOutOfBounds, .stackOverflow, .stackUnderflow, .addressOutOfBounds,
      .keyIndexOutOfRange].map FaultKind.code = [0, 2, 4, 5, 6, 7] := by decide

/-! ### Control transfer -/

/-- C1. -/
theorem test_jp_self : after (·.pc) (run State.reset 0x1200) = some 0x0200 := by decide
/-- C2. -/
theorem test_jp_top : after (·.pc) (run State.reset 0x1FFF) = some 0x0FFF := by decide
/-- C16. -/
theorem test_jpV0_unmasked : after (·.pc) (run (regs [(0, 0xFF)]) 0xBFFF) = some 0x10FE := by decide
/-- C17. -/
theorem test_jpV0_register : after (·.pc) (run (regs [(0, 1), (3, 0x20)]) 0xB3FF) = some 0x0400 := by decide
/-- C3. -/
theorem test_call_last_entry :
    after (fun t => (t.stack[15], t.sp.val, t.pc)) (run { State.reset with pc := 0x0300, sp := 15 } 0x2400) =
      some (0x0302, 16, 0x0400) := by decide
/-- C4. -/
theorem test_call_overflow :
    after (fun t => (t.fault, t.sp.val, t.pc)) (run { State.reset with pc := 0x0300, sp := 16 } 0x2400) =
      some (⟨.stackOverflow, 0x0300⟩, 16, 0x0300) := by decide
/-- C6: the entry stays. -/
theorem test_ret_pops :
    after (fun t => (t.stack[0], t.sp.val, t.pc))
      (run { State.reset with sp := 1, stack := State.reset.stack.set 0 0x1000 } 0x00EE) =
      some (0x1000, 0, 0x1000) := by decide
/-- C5. -/
theorem test_ret_underflow :
    after (fun t => (t.fault, t.pc)) (run { State.reset with pc := 0x0208 } 0x00EE) =
      some (⟨.stackUnderflow, 0x0208⟩, 0x0208) := by decide
/-- C7, C8, C9. -/
theorem test_seImm :
    after (·.pc) (run (regs [(3, 0x13)]) 0x3312) = some 0x0202 ∧
    after (·.pc) (run (regs [(3, 0x12)]) 0x3312) = some 0x0204 ∧
    after (·.pc) (run (regs [(15, 1)]) 0x3F01) = some 0x0204 := by decide
/-- C10, and R174's example. -/
theorem test_sneImm :
    after (·.pc) (run { regs [(3, 1)] with pc := 0x0FFC } 0x4300) = some 0x1000 ∧
    after (·.pc) (run (regs [(3, 0x12)]) 0x4312) = some 0x0202 := by decide
/-- C11, C13, and registers that differ (R175). -/
theorem test_seReg :
    after (·.pc) (run State.reset 0x5110) = some 0x0204 ∧
    after (·.pc) (run (withParams lax (regs [(1, 1), (2, 1)])) 0x5121) = some 0x0204 ∧
    after (·.pc) (run (regs [(1, 1)]) 0x5120) = some 0x0202 := by decide
/-- C14, and R176's example. -/
theorem test_sneReg :
    after (·.pc) (run State.reset 0x9110) = some 0x0202 ∧
    after (·.pc) (run (regs [(1, 0x40), (2, 0x41)]) 0x9120) = some 0x0204 := by decide

/-! ### Register loads and the ALU -/

/-- R202's example. -/
theorem test_ldImm : after (fun t => (t.readV 0, t.pc)) (run State.reset 0x6005) = some (5, 0x0202) := by decide
/-- S2. -/
theorem test_addImm_wraps :
    after (fun t => (t.readV 2, t.readV 15)) (run (regs [(2, 0xFF)]) 0x7201) = some (0, 0) := by decide
/-- A1. -/
theorem test_addImm_vf : after (·.readV 15) (run (regs [(15, 1)]) 0x7FFF) = some 0 := by decide
/-- A17. -/
theorem test_ldReg : after (·.readV 0) (run (regs [(1, 0x7A)]) 0x8010) = some 0x7A := by decide
/-- A15. -/
theorem test_orReg :
    after (fun t => (t.readV 0, t.readV 15)) (run (regs [(0, 0xF0), (1, 0x0F), (15, 1)]) 0x8011) =
      some (0xFF, 1) := by decide
/-- A18. -/
theorem test_andReg : after (·.readV 0) (run (regs [(0, 0xF0), (1, 0x3C)]) 0x8012) = some 0x30 := by decide
/-- A16, and R207's example. -/
theorem test_xorReg :
    after (·.readV 3) (run (regs [(3, 0x5A)]) 0x8333) = some 0 ∧
    after (·.readV 0) (run (regs [(0, 0xFF), (1, 0x0F)]) 0x8013) = some 0xF0 := by decide
/-- S3, S4, A4. -/
theorem test_addReg :
    after (fun t => (t.readV 0, t.readV 15)) (run (regs [(0, 0xFF), (1, 1)]) 0x8014) = some (0, 1) ∧
    after (fun t => (t.readV 0, t.readV 15)) (run (regs [(0, 100), (1, 100)]) 0x8014) = some (200, 0) ∧
    after (fun t => (t.readV 0, t.readV 15)) (run (regs [(0, 1), (15, 0xFF)]) 0x80F4) = some (0, 1) := by decide
/-- A3, in both settings of VF_FLAG_LAST. -/
theorem test_addReg_vf :
    after (·.readV 15) (run (regs [(15, 0xFF), (1, 3)]) 0x8F14) = some 1 ∧
    after (·.readV 15) (run (withParams resultLast (regs [(15, 0xFF), (1, 3)])) 0x8F14) = some 2 := by decide
/-- A5, A6, A7. -/
theorem test_sub :
    after (fun t => (t.readV 0, t.readV 15)) (run (regs [(0, 7), (1, 7)]) 0x8015) = some (0, 1) ∧
    after (fun t => (t.readV 0, t.readV 15)) (run (regs [(0, 3), (1, 5)]) 0x8015) = some (0xFE, 0) ∧
    after (fun t => (t.readV 0, t.readV 15)) (run (regs [(0, 0), (1, 1)]) 0x8015) = some (0xFF, 0) := by decide
/-- A8, A9. -/
theorem test_subn :
    after (fun t => (t.readV 0, t.readV 15)) (run (regs [(0, 3), (1, 5)]) 0x8017) = some (2, 1) ∧
    after (fun t => (t.readV 0, t.readV 15)) (run (regs [(0, 1), (1, 0)]) 0x8017) = some (0xFF, 0) := by decide
/-- A10, S5. -/
theorem test_shr :
    after (fun t => (t.readV 0, t.readV 15)) (run (regs [(0, 0x80), (1, 0xFF)]) 0x8016) = some (0x40, 0) ∧
    after (fun t => (t.readV 0, t.readV 15)) (run (regs [(0, 1)]) 0x8006) = some (0, 1) := by decide
/-- A11, in both settings of VF_FLAG_LAST. -/
theorem test_shr_vf :
    after (·.readV 15) (run (regs [(15, 2)]) 0x8F06) = some 0 ∧
    after (·.readV 15) (run (withParams resultLast (regs [(15, 2)])) 0x8F06) = some 1 := by decide
/-- S5, A13. -/
theorem test_shl :
    after (fun t => (t.readV 0, t.readV 15)) (run (regs [(0, 0x81)]) 0x800E) = some (2, 1) ∧
    after (fun t => (t.readV 0, t.readV 15)) (run (regs [(0, 0x40)]) 0x800E) = some (0x80, 0) := by decide
/-- A14, in both settings of VF_FLAG_LAST. -/
theorem test_shl_vf :
    after (·.readV 15) (run (regs [(15, 0x81)]) 0x8F0E) = some 1 ∧
    after (·.readV 15) (run (withParams resultLast (regs [(15, 0x81)])) 0x8F0E) = some 2 := by decide
/-- A19: whatever byte is drawn. -/
theorem test_rnd_mask_zero : after (·.readV 5) (exec (.rnd 5 0) State.reset) = some 0 := by
  show some (Config.draw8 0 &&& 0) = some 0
  simp
/-- R213: one draw is taken, pc advances. -/
theorem test_rnd_draws : after (fun t => (t.draws, t.pc)) (run State.reset 0xC5FF) = some (1, 0x0202) := by decide

/-! ### I and memory -/

/-- M1. -/
theorem test_ldI : after (·.iReg) (run State.reset 0xAFFF) = some 0x0FFF := by decide
/-- M2, M3. -/
theorem test_addI_wraps :
    after (fun t => (t.iReg, t.readV 15)) (run { regs [(0, 1)] with iReg := 0x0FFF } 0xF01E) = some (0x1000, 0) ∧
    after (·.iReg) (run { regs [(0, 1)] with iReg := 0xFFFF } 0xF01E) = some 0 := by decide
/-- M4. -/
theorem test_addI_vf :
    after (fun t => (t.iReg, t.readV 15)) (run { regs [(15, 0x80)] with iReg := 0x0300 } 0xFF1E) =
      some (0x0380, 0x80) := by decide
/-- M5, M6. -/
theorem test_ldF :
    after (·.iReg) (run (regs [(0, 0x1A)]) 0xF029) = some 0x0082 ∧
    after (·.iReg) (run (regs [(0, 0xFF)]) 0xF029) = some 0x009B := by decide
/-- S8, M9. -/
theorem test_ldB :
    after (fun t => (t.loadBytes 0x300 3, t.iReg)) (run { regs [(0, 234)] with iReg := 0x300 } 0xF033) =
      some ([2, 3, 4], 0x300) ∧
    after (·.loadBytes 0xFFD 3) (run { regs [(0, 9)] with iReg := 0xFFD } 0xF033) = some [0, 0, 9] := by decide
/-- M10. -/
theorem test_ldB_range :
    after (fun t => (t.fault, t.mem)) (exec (.ldB 0) { regs [(0, 9)] with iReg := 0xFFE }) =
      some (⟨.addressOutOfBounds, 0x1000⟩, []) := by decide
/-- M17, M12. -/
theorem test_ldMemStore :
    after (fun t => (t.loadBytes 0x300 3, t.iReg)) (run { regs [(0, 1), (1, 2), (2, 3)] with iReg := 0x300 } 0xF255) =
      some ([1, 2, 3], 0x303) ∧
    after (fun t => (t.loadBytes 0xFFE 2, t.iReg)) (run { regs [(0, 1), (1, 2)] with iReg := 0xFFE } 0xF155) =
      some ([1, 2], 0x1000) := by decide
/-- M13, M14. -/
theorem test_ldMemStore_range :
    after (fun t => (t.fault, t.mem, t.iReg)) (exec (.ldMemStore 1) { regs [(0, 1), (1, 2)] with iReg := 0xFFF }) =
      some (⟨.addressOutOfBounds, 0x1000⟩, [], 0xFFF) ∧
    after (·.fault) (exec (.ldMemStore 0) { State.reset with iReg := 0x1000 }) =
      some ⟨.addressOutOfBounds, 0x1000⟩ := by decide
/-- M15. -/
theorem test_ldMemLoad_all :
    after (fun t => (t.readV 0, t.readV 7, t.readV 15, t.iReg))
      (run ({ State.reset with iReg := 0x300 }.storeBytes 0x300
        [0x10, 0x11, 0x12, 0x13, 0x14, 0x15, 0x16, 0x17, 0x18, 0x19, 0x1A, 0x1B, 0x1C, 0x1D, 0x1E, 0x1F]) 0xFF65) =
      some (0x10, 0x17, 0x1F, 0x310) := by decide
/-- M16. -/
theorem test_ldMemLoad_code :
    after (fun t => (t.readV 0, t.readV 1, t.readV 2, t.iReg)) (run { regs [(2, 9)] with iReg := 0x200 } 0xF165) =
      some (0xF1, 0x65, 9, 0x0202) := by decide

/-! ### Display -/

/-- F8, D7. -/
theorem test_cls :
    after (fun t => (t.fb, t.pc, t.out)) (run (withParams lax { State.reset with fb := State.reset.fb.toggle 70 }) 0x01E0) =
      some (Framebuffer.clear, 0x0202, []) ∧
    after (fun t => (t.fb, t.readV 15)) (run { regs [(15, 3)] with fb := State.reset.fb.toggle 2047 } 0x00E0) =
      some (Framebuffer.clear, 3) := by decide
/-- S7: the sprite wraps. -/
theorem test_drw_wraps :
    after (fun t => (t.fb, t.readV 15))
      (run ({ regs [(0, 63), (1, 31)] with iReg := 0x300 }.storeBytes 0x300 [0xC0, 0x80]) 0xD012) =
      some (((State.reset.fb.toggle 2047).toggle 1984).toggle 63, 0) := by decide
/-- D1, D2, D5, D6. -/
theorem test_drw_corners :
    after (fun t => (t.fb, t.readV 15, t.fault)) (run { regs [(15, 1)] with iReg := 0xFFFF } 0xD010) =
      some (Framebuffer.clear, 0, ⟨.none, 0⟩) ∧
    after (fun t => (t.fb, t.fault)) (run { State.reset with iReg := 0x0FFF } 0xD012) =
      some (Framebuffer.clear, ⟨.addressOutOfBounds, 0x1000⟩) ∧
    after (fun t => (t.fb, t.readV 15))
      (run ({ State.reset with iReg := 0x300, fb := State.reset.fb.toggle 0 }.storeBytes 0x300 [0xC0]) 0xD011) =
      some (State.reset.fb.toggle 1, 1) ∧
    after (fun t => (t.fb, t.readV 15)) (run ({ regs [(15, 3)] with iReg := 0x300 }.storeBytes 0x300 [0x80]) 0xDF01) =
      some (State.reset.fb.toggle 3, 0) := by decide

/-! ### Keypad -/

/-- K1, K2. -/
theorem test_skp :
    after (·.pc) (run { regs [(2, 5)] with key := State.reset.key.set 5 true } 0xE29E) = some 0x0204 ∧
    after (·.pc) (run (regs [(2, 5)]) 0xE29E) = some 0x0202 := by decide
/-- K4, in both settings of KEY_INDEX_POLICY. -/
theorem test_skp_index :
    after (fun t => (t.fault, t.pc)) (run (regs [(2, 0x10)]) 0xE29E) = some (⟨.keyIndexOutOfRange, 0x10⟩, 0x0200) ∧
    after (·.pc) (run (withParams mask4 { regs [(2, 0x10)] with key := State.reset.key.set 0 true }) 0xE29E) =
      some 0x0204 := by decide
/-- K3. -/
theorem test_sknp :
    after (·.pc) (run (regs [(2, 5)]) 0xE2A1) = some 0x0204 ∧
    after (·.pc) (run { regs [(2, 5)] with key := State.reset.key.set 5 true } 0xE2A1) = some 0x0202 := by decide
/-- K5. -/
theorem test_ldK :
    after (fun t => (t.kwActive, t.kwReg, t.pc)) (run State.reset 0xFF0A) = some (true, 15, 0x0200) := by decide
/-- K6. -/
theorem test_key_press_ends_wait :
    after (fun t => (t.key[12], t.readV 15, t.kwActive, t.pc)) (op (.setKeyDown 0xC) waiting) =
      some (true, 0x0C, false, 0x0202) := by decide
/-- K7. -/
theorem test_key_release :
    after (fun t => (t.key[3], t.kwActive, t.pc)) (op (.setKeyUp 3) { waiting with key := State.reset.key.set 3 true }) =
      some (false, true, 0x0200) := by decide
/-- K9. -/
theorem test_key_outside : after id (op (.setKeyDown 0x10) waiting) = some waiting := by decide
/-- K10. -/
theorem test_wait_step : after (fun t => { t with out := [] }) (op .step waiting) = some waiting := by decide

/-! ### Timers and ticks -/

/-- T1. -/
theorem test_ldVxDt : after (·.readV 1) (run { State.reset with dt := 0x3C } 0xF107) = some 0x3C := by decide
/-- T2. -/
theorem test_ldDt : after (·.dt) (run (regs [(0, 5)]) 0xF015) = some 5 := by decide
/-- T3, T4: no event. -/
theorem test_ldSt :
    after (fun t => (t.st, t.out)) (run (regs [(0, 1)]) 0xF018) = some (1, []) ∧
    after (fun t => (t.st, t.out)) (run { State.reset with st := 5 } 0xF018) = some (0, []) := by decide
/-- S9, T6: the timer step, which ends a tick while the key-wait latch is set. -/
theorem test_timer_step :
    after (fun t => (t.dt, t.st, t.out, t.batch)) (step { waiting with dt := 5, st := 1, batch := some 0 }) =
      some (4, 0, [.playBeep, .returned .ok], none) ∧
    after (fun t => (t.st, t.out)) (step { idle with st := 2, batch := some 10 }) = some (1, [.returned .ok]) ∧
    after (fun t => (t.st, t.out)) (step { idle with st := 0, batch := some 10 }) = some (0, [.returned .ok]) := by
  decide
/-- T7: a fatal cycle ends the tick with no timer step. -/
theorem test_tick_fatal :
    after (fun t => (t.dt, t.pc, t.batch, t.out))
      (step { State.reset.withFetchWord 16 0x00EE with dt := 5, batch := some 1 }) =
      some (5, 0x0200, none, [.returned (.fatal .stackUnderflow 0x0200)]) := by decide
/-- T10. -/
theorem test_step_no_timers :
    after (fun t => (t.pc, t.dt, t.out)) (op .step { idle with dt := 5 }) = some (0x0200, 5, [.returned .ok]) := by
  decide
/-- T9. -/
theorem test_reset : after (fun t => { t with out := [] }) (op .reset faultedCore) = some State.reset := by decide
/-- R383: load copies and resets nothing else. -/
theorem test_load :
    after (fun t => (t.loadBytes 0x1FF 4, t.pc, t.out)) (op (.load [0x60, 0x05]) { State.reset with pc := 0x300 }) =
      some ([0, 0x60, 0x05, 0], 0x300, [.returned .ok]) := by decide
/-- R388: restart is reset, then load of the last image. -/
theorem test_restart :
    after (·.host) (op .restart { State.reset with lastImage := some [0x12] }) = some [.reset, .load [0x12]] := by
  decide
/-- R353: the snapshot's word and stack. -/
theorem test_snapshot :
    idle.snapshot.word = some 0x1200 ∧ ({ idle with pc := 0x0FFF } : State).snapshot.word = none ∧
    ({ idle with sp := 2 } : State).snapshot.stack = [0, 0] := by decide
/-- R382 (general knowledge, log entry 5): the first and last bytes of the default fontset, and zero on either
side (R46). -/
theorem test_reset_memory :
    [0x04F, 0x050, 0x051, 0x09F, 0x0A0, 0xFFF].map State.reset.memRead = [0, 0xF0, 0x90, 0x80, 0, 0] := by decide
/-- A word placed where step fetches is what the next step runs. -/
theorem test_withFetchWord :
    State.decodedAtPc (faultedCore.withFetchWord 16 0xD125) = .instr (.drw 1 2 5) ∧
    (faultedCore.withFetchWord 16 0xD125).faulted = false := by decide

/-! ### Witnesses -/

theorem witness_HostResetLeavesResetState :
    ({ faultedCore with host := [.reset] } : State).batch = none ∧
    ({ faultedCore with host := [.reset] } : State).host = .reset :: [] := by decide

theorem witness_StepRunsDecodedInstruction :
    idle.batch = none ∧ idle.host = [] ∧ idle.faulted = false ∧ idle.fetchable ∧
      idle.decodedAtPc = .instr (.jp 0x200) := by decide

/-- At the last fetchable address. -/
theorem witness_StepRunsDecodedInstruction_top :
    let s := ({ State.reset with pc := 0xFFE } : State).withFetchWord 16 0x00E0
    s.batch = none ∧ s.host = [] ∧ s.faulted = false ∧ s.fetchable ∧ s.pc = 0xFFE ∧
      s.decodedAtPc = .instr .cls := by decide

theorem witness_FetchIsBigEndian : 4094 + 1 < 4096 ∧ idle.fetch16 0x200 = 0x1200 := by decide

theorem witness_UnknownWordOnlyReports :
    State.reset.batch = none ∧ State.reset.host = [] ∧ State.reset.faulted = false ∧ State.reset.fetchable ∧
      State.reset.decodedAtPc = .unknown 0x0000 := by decide

theorem witness_FetchPastMemoryLatches :
    let s := { State.reset with pc := 0xFFF }
    s.batch = none ∧ s.host = [] ∧ s.faulted = false ∧ 4096 ≤ s.pc.toNat + 1 := by decide

theorem witness_FaultedCoreStaysPut :
    faultedCore.faulted = true ∧ faultedCore.batch = none ∧ faultedCore.host = [] ∧
    ({ faultedCore with host := [.tick] } : State).host = .tick :: [] ∧
    ({ faultedCore with host := [.step] } : State).host = .step :: [] ∧
    ({ faultedCore with host := [.cycle] } : State).host = .cycle :: [] := by decide

theorem witness_EncodeDecodeRoundTrip : decodeWord true 0x8F14 = .instr (.addReg 15 1) := by decide

theorem witness_DecodersDifferOnlyWhereNamed :
    decodeAmbiguous 0x5120 = false ∧ decodeAmbiguous 0x5121 = true ∧ decodeAmbiguous 0x912F = true ∧
    decodeAmbiguous 0x01E0 = true ∧ decodeAmbiguous 0x0FEE = true ∧ decodeAmbiguous 0x00EE = false := by decide

theorem witness_CallPushesReturnAddress :
    State.reset.sp.val < 16 ∧ ({ State.reset with sp := 15 } : State).sp.val < 16 ∧
    ({ State.reset with sp := 16 } : State).sp.val = 16 := by decide

theorem witness_ReturnPopsAddress :
    0 < ({ State.reset with sp := 1 } : State).sp.val ∧ 0 < ({ State.reset with sp := 16 } : State).sp.val ∧
    State.reset.sp.val = 0 := by decide

theorem witness_ReturnGoesBackAfterCall :
    ∃ t u : State, ({ State.reset with sp := 15 } : State).sp.val < 16 ∧
      exec (.call 0x300) { State.reset with sp := 15 } = .next t ∧ u.stack = t.stack ∧ u.sp = t.sp :=
  ⟨_, _, by decide, rfl, rfl, rfl⟩

/-- AddWithCarryOut, SubtractBothWays, ShiftBothWays: the register next to VF. -/
theorem witness_flag_instructions : (14 : Reg) ≠ 15 ∧ (0 : Reg) ≠ 15 := by decide

theorem witness_FlagRegisterAsDestination :
    State.reset.params.vfFlagLast = true ∧ (withParams resultLast State.reset).params.vfFlagLast = false := by
  decide

theorem witness_StoreBcdDigits :
    State.reset.memOk ∧ ({ State.reset with iReg := 0xFFD } : State).iReg.toNat + 2 < 4096 ∧
    4096 ≤ ({ State.reset with iReg := 0xFFE } : State).iReg.toNat + 2 := by decide

/-- StoreRegisterBlock, LoadRegisterBlock: the largest block at the top of memory. -/
theorem witness_register_blocks :
    ({ State.reset with iReg := 0xFF0 } : State).memOk ∧
    ({ State.reset with iReg := 0xFF0 } : State).iReg.toNat + (15 : Reg).val < 4096 := by decide

theorem witness_LoadAfterStoreRestores :
    ∃ t u : State, ({ State.reset with iReg := 0xFF0 } : State).memOk ∧
      ({ State.reset with iReg := 0xFF0 } : State).iReg.toNat + (15 : Reg).val < 4096 ∧
      exec (.ldMemStore 15) { State.reset with iReg := 0xFF0 } = .next t ∧
      u.mem = t.mem ∧ u.params = t.params ∧ u.iReg = ({ State.reset with iReg := 0xFF0 } : State).iReg := by
  obtain ⟨t, ht⟩ : ∃ t, exec (.ldMemStore 15) { State.reset with iReg := 0xFF0 } = .next t := ⟨_, rfl⟩
  exact ⟨t, { t with iReg := 0xFF0 }, by decide, by decide, ht, rfl, rfl, rfl⟩

/-- Each disjunct, at the lowest I that is out of range, and at the highest I. -/
theorem witness_OutOfRangeAccessLatches :
    4096 ≤ ({ State.reset with iReg := 0xFFE } : State).iReg.toNat + 3 - 1 ∧
    4096 ≤ ({ State.reset with iReg := 0xFF1 } : State).iReg.toNat + ((15 : Reg).val + 1) - 1 ∧
    4096 ≤ ({ State.reset with iReg := 0x1000 } : State).iReg.toNat + ((0 : Reg).val + 1) - 1 ∧
    (4096 ≤ ({ State.reset with iReg := 0xFFFF } : State).iReg.toNat + (1 : Fin 16).val - 1 ∧ 0 < (1 : Fin 16).val) := by
  decide

theorem witness_DrawFlipsLitPixels :
    (0 : Fin 16).val = 0 ∧ ({ State.reset with iReg := 0xFF1 } : State).iReg.toNat + (15 : Fin 16).val - 1 < 4096 := by
  decide

theorem witness_DrawingTwiceRestores :
    ∃ t u : State, (0 : Reg) ≠ 15 ∧ (1 : Reg) ≠ 15 ∧
      ((1 : Fin 16).val = 0 ∨ State.reset.iReg.toNat + (1 : Fin 16).val - 1 < 4096) ∧
      exec (.drw 0 1 1) State.reset = .next t ∧ exec (.drw 0 1 1) t = .next u :=
  ⟨_, _, by decide, by decide, by decide, rfl, rfl⟩

/-- The last bit of the last row; two pixels at the ends of the framebuffer; fifteen rows at the top of
memory, and no row. -/
theorem witness_SpriteBitsHitDistinctPixels :
    (14 < 15 ∧ 7 < 8 ∧ spritePixel 63 31 14 7 = spritePixel 63 31 14 7) ∧
    (0 < 2048 ∧ 2047 < 2048 ∧ (0 : Nat) ≠ 2047) ∧
    ({ State.reset with iReg := 0xFF1 } : State).iReg.toNat + (15 : Fin 16).val - 1 < 4096 ∧
    (0 : Fin 16).val = 0 := by decide

theorem witness_SkipOnKey :
    ((regs [(2, 0xF)]).readV 2).toNat ≤ 0xF ∧ (15 : Fin 16).val = ((regs [(2, 0xF)]).readV 2).toNat % 16 ∧
    (withParams mask4 (regs [(2, 0x10)])).params.keyIndexPolicy = .mask4 ∧
    (0 : Fin 16).val = ((withParams mask4 (regs [(2, 0x10)])).readV 2).toNat % 16 ∧
    0xF < ((regs [(2, 0x10)]).readV 2).toNat ∧ (regs [(2, 0x10)]).params.keyIndexPolicy = .fault := by decide

/-- Both ends of the key numbers, with and without a wait, and between two core steps of a tick. -/
theorem witness_KeyPressEndsWait :
    let s (k : Int) (b : Option Nat) : State := { waiting with host := [.setKeyDown k], batch := b }
    (s 15 none).host = .setKeyDown ((15 : Fin 16).val : Int) :: [] ∧ (s 15 none).kwActive = true ∧
    (s 0 (some 3)).host = .setKeyDown ((0 : Fin 16).val : Int) :: [] ∧ (s 0 (some 3)).kwActive = true ∧
    ({ s 0 (some 3) with kwActive := false } : State).kwActive = false ∧
    (15 : Int) < 16 ∧ (-1 : Int) < 0 := by decide

theorem witness_KeyReleaseOnlyClearsKey :
    ({ State.reset with host := [.setKeyUp 15] } : State).host = .setKeyUp ((15 : Fin 16).val : Int) :: [] ∧
    ({ State.reset with host := [.setKeyUp 16] } : State).host = .setKeyUp 16 :: [] ∧ (15 : Int) < 16 := by decide

theorem witness_TimersAreTwoStateMachines :
    State.reset.dt = 0 ∧ State.reset.st = 0 ∧ ({ State.reset with dt := 0xFF, st := 1 } : State).dt ≠ 0 ∧
    ({ State.reset with dt := 0xFF, st := 1 } : State).st = 1 ∧
    ({ State.reset with st := 0xFF } : State).st ≠ 1 := by decide

theorem witness_HostInvokesCycleStepOrTick :
    ({ idle with host := [.cycle] } : State).batch = none ∧ ({ idle with host := [.cycle] } : State).faulted = false ∧
    ({ idle with host := [.cycle] } : State).host = .cycle :: [] ∧
    ({ idle with host := [.step] } : State).host = .step :: [] ∧
    ({ idle with host := [.tick, .reset] } : State).host = .tick :: [.reset] := by decide

/-- No operation pending, or one that waits. -/
theorem witness_TickRunsBatchThenTimers_host :
    (∀ op rest, idle.host = op :: rest → (∀ k, op ≠ .setKeyDown k) ∧ (∀ k, op ≠ .setKeyUp k) ∧ op ≠ .pass) ∧
    (∀ op rest, ({ idle with host := [.reset] } : State).host = op :: rest →
      (∀ k, op ≠ .setKeyDown k) ∧ (∀ k, op ≠ .setKeyUp k) ∧ op ≠ .pass) := by
  refine ⟨fun op rest h => (by cases h), fun op rest h => ?_⟩
  cases h
  exact ⟨fun _ => HostOp.noConfusion, fun _ => HostOp.noConfusion, HostOp.noConfusion⟩

/-- The last cycle of the batch; a fatal cycle; the full batch; a wait. -/
theorem witness_TickRunsBatchThenTimers :
    (∃ u, ({ idle with batch := some 9 } : State).batch = some 9 ∧ ({ idle with batch := some 9 } : State).host = [] ∧
      9 < idle.params.cyclesPerTick ∧ idle.kwActive = false ∧ cycle { idle with batch := some 9 } = .next u ∧
      idle.faulted = false ∧ u.faulted = false) ∧
    (∃ u, cycle { State.reset.withFetchWord 16 0x00EE with batch := some 0 } = .next u ∧ u.faulted = true) ∧
    idle.params.cyclesPerTick ≤ 10 ∧ ({ waiting with batch := some 0 } : State).kwActive = true :=
  ⟨⟨_, by decide, by decide, by decide, by decide, rfl, by decide, by decide⟩, ⟨_, rfl, by decide⟩, by decide, by decide⟩

theorem witness_WaitingCoreOnlyCountsTimers :
    waiting.atWaiting ∧ waiting.waitOk ∧ waiting.batch = none ∧ waiting.host = [] ∧
    ({ waiting with host := [.tick] } : State).atWaiting ∧ ({ waiting with host := [.tick] } : State).waitOk ∧
    ({ waiting with host := [.tick] } : State).host = [.tick] := by decide

theorem witness_IdleTickOnlyCountsTimers :
    idle.atIdle ∧ idle.batch = none ∧ ({ idle with host := [.tick] } : State).atIdle ∧
    ({ idle with host := [.tick] } : State).host = [.tick] ∧
    (({ State.reset with pc := 0xFFE } : State).withFetchWord 16 0x1FFE).atIdle := by decide

/-- The longest image that fits and the shortest that does not. -/
theorem witness_LoadCopiesImage :
    State.reset.memOk ∧ State.reset.batch = none ∧
    (∀ bytes, ({ State.reset with host := [.load bytes] } : State).host = .load bytes :: []) ∧
    (List.replicate 3584 (0 : Byte)).length ≤ 3584 ∧ 3584 < (List.replicate 3585 (0 : Byte)).length := by
  refine ⟨by decide, by decide, fun _ => rfl, ?_, ?_⟩ <;> rw [List.length_replicate]; decide

theorem witness_RestartIsResetThenLoad :
    let s : State := { State.reset with host := [.restart], lastImage := some [0x12] }
    s.batch = none ∧ s.host = .restart :: [] ∧ s.params.restartReloads = true ∧ s.lastImage = some [0x12] ∧
    State.reset.lastImage = none := by decide

/-- An instruction, a key press that ends a wait, and a reset each write a register. -/
theorem witness_OnlyNamedRegistersWritten :
    (∃ t, step (State.reset.withFetchWord 16 0x6005) = .next t ∧
      t.readV 0 ≠ (State.reset.withFetchWord 16 0x6005).readV 0) ∧
    (∃ t, step { waiting with host := [.setKeyDown 3] } = .next t ∧ t.readV 15 ≠ waiting.readV 15) ∧
    (∃ t, step { regs [(4, 9)] with host := [.reset] } = .next t ∧ t.readV 4 ≠ (regs [(4, 9)]).readV 4) :=
  ⟨⟨_, rfl, by decide⟩, ⟨_, rfl, by decide⟩, ⟨_, rfl, by decide⟩⟩

theorem witness_CycleLeavesTimersAndBatch :
    (∃ t, cycle ((regs [(0, 5)]).withFetchWord 16 0xF015) = .next t ∧ t.dt ≠ State.reset.dt) ∧
    (∃ t, cycle ((regs [(0, 5)]).withFetchWord 16 0xF018) = .next t ∧ t.st ≠ State.reset.st) ∧
    (∃ t, step { idle with dt := 5, batch := some 10 } = .next t ∧ t.dt ≠ 5) :=
  ⟨⟨_, rfl, by decide⟩, ⟨_, rfl, by decide⟩, ⟨_, rfl, by decide⟩⟩

theorem witness_OnlyDrawingWritesPixels :
    ∃ t, step ({ State.reset with fb := State.reset.fb.toggle 5 } : State) = .next t ∧ t.fb = State.reset.fb.toggle 5 ∧
    ∃ u, step (({ State.reset with fb := State.reset.fb.toggle 5 } : State).withFetchWord 16 0x00E0) = .next u ∧
      u.fb ≠ State.reset.fb.toggle 5 :=
  ⟨_, rfl, by decide, _, rfl, by decide⟩

theorem witness_OnlyNamedWritersOfSpaces :
    (∃ t, step (({ regs [(0, 9)] with iReg := 0x300 } : State).withFetchWord 16 0xF055) = .next t ∧
      t.mem ≠ (({ regs [(0, 9)] with iReg := 0x300 } : State).withFetchWord 16 0xF055).mem) ∧
    (∃ t, step (State.reset.withFetchWord 16 0x2300) = .next t ∧ t.stack ≠ State.reset.stack) ∧
    (∃ t, step { State.reset with host := [.setKeyDown 3] } = .next t ∧ t.key ≠ State.reset.key) :=
  ⟨⟨_, rfl, by decide⟩, ⟨_, rfl, by decide⟩, ⟨_, rfl, by decide⟩⟩

theorem witness_MemoryStaysCanonical :
    ∃ t, (State.reset.withFetchWord 16 0x6005).memOk ∧ step (State.reset.withFetchWord 16 0x6005) = .next t :=
  ⟨_, by decide, rfl⟩

/-- At the bound of a jump; at the last Fx0A memory can hold, as its wait ends; and, without waitOk, at the
bound past a broken wait. -/
theorem witness_PcStaysBounded :
    ({ State.reset with pc := 0x10FE } : State).waitOk ∧ ({ State.reset with pc := 0x10FE } : State).pcNear ∧
    ¬({ State.reset with pc := 0x10FF } : State).pcNear ∧ (∃ t, step { State.reset with pc := 0x10FE } = .next t) :=
  ⟨by decide, by decide, by decide, _, rfl⟩

/-- A key press that ends a wait at 0x0FFE. -/
theorem witness_PcStaysBounded_wait :
    let s : State := { ({ State.reset with pc := 0xFFE } : State).withFetchWord 16 0xF30A with
      kwActive := true, kwReg := 3, host := [.setKeyDown 9] }
    s.waitOk ∧ s.pcNear ∧ after (·.pc) (step s) = some 0x1000 := by decide

/-- A key press that ends a broken wait at 0x10FE. -/
theorem witness_PcStaysBounded_broken :
    let s : State := { State.reset with pc := 0x10FE, kwActive := true, host := [.setKeyDown 9] }
    s.pcOk ∧ ¬s.waitOk ∧ after (·.pc) (step s) = some 0x1100 ∧
    ({ State.reset with pc := 0x1100 } : State).pcOk ∧ ¬({ State.reset with pc := 0x1101 } : State).pcOk := by decide

theorem witness_KeyWaitStaysAtItsInstruction :
    waiting.waitOk ∧ waiting.kwActive = true ∧ waiting.noLoadPending ∧
    ({ waiting with host := [.setKeyUp 3, .tick] } : State).noLoadPending ∧
    ¬({ waiting with host := [.load []] } : State).noLoadPending ∧ ∃ t, step waiting = .next t :=
  ⟨by decide, by decide, by decide, by decide, by decide, _, rfl⟩

end Sys2Proof.Machine.Tests
end

section
/-! Which steps write a general register (spec/10_state.md R32). -/

namespace Sys2Proof.Machine

/-- A cycle changes a general register only by running an instruction that writes it. -/
theorem cycle_writesReg {s u : State} {r : Reg} (h : cycle s = .next u) (hn : u.readV r ≠ s.readV r) :
    ∃ i, s.decodedAtPc = .instr i ∧ writesReg i r = true := by
  obtain rfl | ⟨_, _, rfl⟩ | ⟨_, _, i, hd, hi⟩ | ⟨_, _, w, _, rfl⟩ := cycle_spec h
  · exact absurd rfl hn
  · exact absurd rfl hn
  · exact ⟨i, hd, exec_writesReg hi hn⟩
  · exact absurd rfl hn

/-- Writing one register leaves every other as it was. -/
theorem State.readV_setV_of_ne {s : State} {x r : Reg} {b : Byte} (h : r ≠ x) :
    (s.setV x b).readV r = s.readV r :=
  Vector.getElem_set_ne x.isLt r.isLt fun hx => h (Fin.ext hx.symm)

/-- A key press changes no register but kw_reg, and that one only where it ends a key-wait (R294). -/
theorem State.keyDown_writesReg {s : State} {k : Int} {r : Reg} (hn : (s.keyDown k).readV r ≠ s.readV r) :
    (∃ j : Fin 16, k = (j.val : Int)) ∧ s.kwActive = true ∧ r = s.kwReg := by
  unfold State.keyDown at hn
  by_cases hk : 0 ≤ k ∧ k ≤ 15
  · simp only [keyOf_of_mem hk] at hn
    split at hn
    case isTrue hw =>
      refine ⟨⟨⟨k.toNat, by omega⟩, (Int.toNat_of_nonneg hk.1).symm⟩, hw, ?_⟩
      by_contra hr
      exact hn (State.readV_setV_of_ne hr)
    case isFalse => exact absurd rfl hn
  · rw [keyOf_eq_none.mpr hk] at hn
    exact absurd rfl hn

/-- A key release writes no register (R295). -/
@[simp] theorem State.keyUp_v (s : State) (k : Int) : (s.keyUp k).v = s.v := by
  unfold State.keyUp; split <;> rfl

/-- A load, accepted or not, writes no register (R383, R384). -/
@[simp] theorem State.load_v (s : State) (bytes : List Byte) : (s.load bytes).v = s.v := by
  unfold State.load
  split
  · rfl
  · rw [State.storeBytes_frame]; rfl

/-- The timer step writes no register (R342, R343). -/
@[simp] theorem State.timerStep_v (s : State) : (s.timerStep).v = s.v := by
  rw [State.timerStep_eq]

/-- Settles O53, by the cases of a step: a cycle, a key press and a reset are the only ones that can
leave another register value behind. -/
theorem onlyNamedRegistersWritten : Obligations.OnlyNamedRegistersWritten := by
  unfold Obligations.OnlyNamedRegistersWritten
  intro s t r ht hn
  have unchanged : t.v ≠ s.v := fun hv => hn (by unfold State.readV; rw [hv])
  obtain ⟨t', ht', hcase⟩ := step_cases s
  cases ht.symm.trans ht'
  cases hcase with
  | reset rest hb hh => exact .inl ⟨hb, rest, hh⟩
  | keyDown k rest hh =>
    obtain ⟨⟨j, rfl⟩, hw, hr⟩ := State.keyDown_writesReg hn
    exact .inr (.inl ⟨j, rest, hh, hw, hr⟩)
  | cycled rest u b o _ hc _ => exact .inr (.inr (cycle_writesReg (s := { s with host := rest }) hc hn))
  | timers => exact absurd (State.timerStep_v _) unchanged
  | keyUp => exact absurd (State.keyUp_v _ _) unchanged
  | load => exact absurd (State.load_v _ _) unchanged
  | restart => exact absurd rfl unchanged
  | noCore => exact absurd rfl unchanged

end Sys2Proof.Machine
end

section
/-! The instruction word in memory (spec/20_memory.md R76). -/

namespace Sys2Proof.Machine

/-- Two bytes make at most 255 * 256 + 255 = 65535, so the 16-bit word of them loses no bit. -/
theorem toNat_wordOfBytes (hi lo : Byte) : (wordOfBytes hi lo).toNat = hi.toNat * 256 + lo.toNat := by
  have hhi := hi.isLt
  have hlo := lo.isLt
  rw [wordOfBytes, BitVec.toNat_ofNat, Nat.mod_eq_of_lt (by omega)]

/-- Settles O5: a fetch is the word of the bytes at a and a + 1. The bound on a is Fetch16's
precondition; the model's reads are total, so the equation does not need it. -/
theorem fetchIsBigEndian : Obligations.FetchIsBigEndian :=
  fun s a _ => toNat_wordOfBytes (s.memRead a) (s.memRead (a + 1))

end Sys2Proof.Machine
end

section
/-! UNKNOWN words: what the decoder answers for one, and what the machine does with it
(spec/30_encoding.md R112, R115). -/

namespace Sys2Proof.Machine

/-- Family 0x0 answers UNKNOWN only with the word it was given. -/
theorem eq_of_decode0_eq_unknown {strict : Bool} {w u : Word} (h : decode0 strict w = .unknown u) :
    u = w := by
  unfold decode0 at h
  split at h
  · cases h; rfl
  · split at h <;> cases h
    rfl

/-- Families 0x5 and 0x9 answer UNKNOWN only with the word they were given. -/
theorem eq_of_decodeXy0_eq_unknown {strict : Bool} {w u : Word} {i : Instr}
    (h : decodeXy0 strict w i = .unknown u) : u = w := by
  unfold decodeXy0 at h
  split at h <;> cases h
  rfl

/-- Family 0x8 answers UNKNOWN only with the word it was given. -/
theorem eq_of_decode8_eq_unknown {w u : Word} (h : decode8 w = .unknown u) : u = w := by
  unfold decode8 at h
  split at h <;> cases h
  rfl

/-- Family 0xE answers UNKNOWN only with the word it was given. -/
theorem eq_of_decodeE_eq_unknown {w u : Word} (h : decodeE w = .unknown u) : u = w := by
  unfold decodeE at h
  split at h <;> cases h
  rfl

/-- Family 0xF answers UNKNOWN only with the word it was given. -/
theorem eq_of_decodeF_eq_unknown {w u : Word} (h : decodeF w = .unknown u) : u = w := by
  unfold decodeF at h
  split at h <;> cases h
  rfl

/-- Either decoder answers UNKNOWN only with the word it was given (R115): the families with a decoder
of their own (op 0, 5, 9, 8, E, F) and the default arm do, and every other op is an instruction. The case
tagged h_k is op k - 1. -/
theorem eq_of_decodeWord_eq_unknown {strict : Bool} {w u : Word}
    (h : decodeWord strict w = .unknown u) : u = w := by
  unfold decodeWord at h
  split at h
  case h_1 => exact eq_of_decode0_eq_unknown h
  case h_6 | h_10 => exact eq_of_decodeXy0_eq_unknown h
  case h_9 => exact eq_of_decode8_eq_unknown h
  case h_15 => exact eq_of_decodeE_eq_unknown h
  case h_16 => exact eq_of_decodeF_eq_unknown h
  case h_17 => cases h; rfl
  all_goals cases h

/-- A cycle at an UNKNOWN word emits its event and pre-advances pc (R112, R147): of the cases of a
cycle the other three need a latched fault, a fetch past memory, or an instruction at pc. -/
theorem cycle_of_decodedAtPc_unknown {s : State} {w : Word} (hf : s.faulted = false)
    (hx : s.fetchable) (hd : s.decodedAtPc = .unknown w) :
    cycle s = .next (s.advance.emit (.unknownOpcode w s.pc)) := by
  obtain ⟨hf', _⟩ | ⟨_, hx', _⟩ | ⟨_, _, i, hd', _⟩ | ⟨_, _, u, hd', hc⟩ := cycle_cases s
  · exact absurd hf' (by simp [hf])
  · exact absurd hx hx'
  · cases hd.symm.trans hd'
  · cases hd.symm.trans hd'
    exact hc

/-- Settles O6: the decoder hands back the fetched word, and the step is the cycle at an UNKNOWN word. -/
theorem unknownWordOnlyReports : Obligations.UnknownWordOnlyReports :=
  fun _ _ hb hh hf hx hd =>
    ⟨eq_of_decodeWord_eq_unknown hd,
      (step_eq_cycle hb hh).trans (cycle_of_decodedAtPc_unknown hf hx hd)⟩

end Sys2Proof.Machine
end

section
/-! Who writes the timers, and the batch counter of the tick, which no cycle reads
(spec/40_cycle_and_dispatch.md R151). -/

namespace Sys2Proof.Machine

/-! ### The cycle, case by case -/

/-- A faulted core does nothing (R141). -/
theorem cycle_of_faulted {s : State} (hf : s.faulted = true) : cycle s = .next s := by
  rw [cycle, if_pos hf]

/-- A fetch past memory is fatal (R142). -/
theorem cycle_of_not_fetchable {s : State} (hf : s.faulted = false) (hx : ¬s.fetchable) :
    cycle s = .next (s.raise .fetchOutOfBounds s.pc.toNat) := by
  rw [cycle, if_neg (by simp [hf]), if_neg hx]

/-- The instruction at pc is executed (R146). -/
theorem cycle_of_decodedAtPc_instr {s : State} {i : Instr} (hf : s.faulted = false) (hx : s.fetchable)
    (hd : s.decodedAtPc = .instr i) : cycle s = exec i s := by
  rw [State.decodedAtPc] at hd
  rw [cycle, if_neg (by simp [hf]), if_pos hx, hd]

/-! ### No cycle reads the batch counter -/

/-- The state with another batch counter. -/
def State.withBatch (s : State) (b : Option Nat) : State := { s with batch := b }

@[simp] theorem State.withBatch_pc (s : State) (b : Option Nat) : (s.withBatch b).pc = s.pc := rfl
@[simp] theorem State.withBatch_iReg (s : State) (b : Option Nat) : (s.withBatch b).iReg = s.iReg := rfl
@[simp] theorem State.withBatch_params (s : State) (b : Option Nat) : (s.withBatch b).params = s.params := rfl
@[simp] theorem State.withBatch_readV (s : State) (x : Reg) (b : Option Nat) :
    (s.withBatch b).readV x = s.readV x := rfl
@[simp] theorem State.advance_withBatch (s : State) (b : Option Nat) :
    (s.withBatch b).advance = s.advance.withBatch b := rfl

/-- A skip, taken or not, does the same under any batch counter. -/
theorem State.skipIf_withBatch (s : State) (taken : Bool) (b : Option Nat) :
    (s.withBatch b).skipIf taken = (s.skipIf taken).withBatch b := by
  cases taken <;> rfl

/-- The write of result and flag does the same under any batch counter. -/
theorem State.writeback_withBatch (s : State) (x : Reg) (r f : Byte) (b : Option Nat) :
    (s.withBatch b).writeback x r f = (s.writeback x r f).withBatch b := by
  rw [State.writeback_eq, State.writeback_eq]; rfl

/-- MemWrite does the same under any batch counter. -/
theorem State.memWrite_withBatch (s : State) (a : Nat) (v : Byte) (b : Option Nat) :
    (s.withBatch b).memWrite a v = (s.memWrite a v).withBatch b := by
  unfold State.memWrite
  split <;> rfl

/-- A store of bytes does the same under any batch counter. -/
theorem State.storeBytes_withBatch (s : State) (a : Nat) (bs : List Byte) (b : Option Nat) :
    (s.withBatch b).storeBytes a bs = (s.storeBytes a bs).withBatch b := by
  induction bs generalizing s a with
  | nil => rfl
  | cons c rest ih => rw [State.storeBytes, State.memWrite_withBatch, ih, State.storeBytes]

/-- A push is refused, or does the same, under any batch counter. -/
theorem State.push_withBatch (s : State) (w : Word) (b : Option Nat) :
    (s.withBatch b).push w = (s.push w).map (·.withBatch b) := by
  unfold State.push State.withBatch
  split <;> rfl

/-- A pop is refused, or answers and does the same, under any batch counter. -/
theorem State.pop_withBatch (s : State) (b : Option Nat) :
    (s.withBatch b).pop = s.pop.map fun p => (p.1, p.2.withBatch b) := by
  unfold State.pop State.withBatch
  split <;> rfl

/-- An instruction neither reads nor writes the batch counter: under another one it does the same and
leaves that one in place. Where it does not branch and stores nothing, both sides compute alike. -/
theorem exec_withBatch (i : Instr) (s : State) (b : Option Nat) :
    exec i (s.withBatch b) = onNext (exec i s) fun t => .next (t.withBatch b) := by
  cases i
  case seImm | sneImm | seReg | sneReg => exact congrArg _ (State.skipIf_withBatch ..)
  case addReg | sub | shr | subn | shl => exact congrArg _ (State.writeback_withBatch s.advance ..)
  case ret =>
    simp only [exec, execRet, State.advance_withBatch, State.pop_withBatch]
    cases s.advance.pop <;> rfl
  case call =>
    simp only [exec, execCall, State.advance_withBatch, State.push_withBatch, State.withBatch_pc]
    cases s.advance.push s.advance.pc <;> rfl
  case skp x | sknp x =>
    simp only [exec, execSkp, execSknp, State.withBatch_params, State.withBatch_readV]
    cases keyIndex s.params (s.readV x) with
    | none => rfl
    | some => exact congrArg _ (State.skipIf_withBatch ..)
  case drw x y n =>
    simp only [exec, execDrw, State.withBatch_iReg]
    cases drawFault s.iReg n.val <;> rfl
  case ldB =>
    simp only [exec, execLdB, State.withBatch_iReg]
    cases rangeFault s.iReg 3 with
    | none => exact congrArg _ (State.storeBytes_withBatch s.advance ..)
    | some => rfl
  case ldMemStore x =>
    simp only [exec, execLdMemStore, State.withBatch_iReg, State.advance_withBatch, State.storeBytes_withBatch]
    cases rangeFault s.iReg (x.val + 1) <;> rfl
  case ldMemLoad x =>
    simp only [exec, execLdMemLoad, State.withBatch_iReg]
    cases rangeFault s.iReg (x.val + 1) <;> rfl
  all_goals rfl

/-- A cycle neither reads nor writes the batch counter (R151). -/
theorem cycle_withBatch (s : State) (b : Option Nat) :
    cycle (s.withBatch b) = onNext (cycle s) fun t => .next (t.withBatch b) := by
  obtain ⟨hf, h⟩ | ⟨hf, hx, h⟩ | ⟨hf, hx, i, hd, h⟩ | ⟨hf, hx, w, hd, h⟩ := cycle_cases s <;> rw [h]
  · exact cycle_of_faulted (s := s.withBatch b) hf
  · exact cycle_of_not_fetchable (s := s.withBatch b) hf hx
  · exact (cycle_of_decodedAtPc_instr (s := s.withBatch b) hf hx hd).trans (exec_withBatch i s b)
  · exact cycle_of_decodedAtPc_unknown (s := s.withBatch b) hf hx hd

/-! ### Who writes the timers -/

/-- What a cycle does to the timers and the outputs: DT changes only by running Fx15 and ST only by
running Fx18, and the one event it can emit is the UnknownOpcode of an UNKNOWN word (R147, R151). -/
theorem cycle_timers_out {s u : State} (h : cycle s = .next u) :
    (u.dt ≠ s.dt → ∃ x, s.decodedAtPc = .instr (.ldDt x)) ∧
    (u.st ≠ s.st → ∃ x, s.decodedAtPc = .instr (.ldSt x)) ∧
    (u.out = s.out ∨ ∃ w a, u.out = s.out ++ [.unknownOpcode w a]) := by
  obtain rfl | ⟨_, _, rfl⟩ | ⟨_, _, i, hd, hi⟩ | ⟨_, _, w, _, rfl⟩ := cycle_spec h
  · exact ⟨absurd rfl, absurd rfl, .inl rfl⟩
  · exact ⟨absurd rfl, absurd rfl, .inl rfl⟩
  · have hframe := exec_frame hi
    exact ⟨fun hn => (hframe.dt hn).imp fun _ hx => hd.trans (congrArg _ hx),
      fun hn => (hframe.st hn).imp fun _ hx => hd.trans (congrArg _ hx), .inl hframe.out⟩
  · exact ⟨absurd rfl, absurd rfl, .inr ⟨w, s.pc, rfl⟩⟩

/-- A key press leaves both timers, also where it ends a key-wait (R294). -/
theorem State.keyDown_timers (s : State) (k : Int) :
    (s.keyDown k).dt = s.dt ∧ (s.keyDown k).st = s.st := by
  unfold State.keyDown
  split
  · exact ⟨rfl, rfl⟩
  · dsimp only
    split <;> exact ⟨rfl, rfl⟩

/-- A key release leaves both timers (R295). -/
theorem State.keyUp_timers (s : State) (k : Int) :
    (s.keyUp k).dt = s.dt ∧ (s.keyUp k).st = s.st := by
  unfold State.keyUp
  split <;> exact ⟨rfl, rfl⟩

/-- A load, accepted or not, leaves both timers (R383, R384). -/
theorem State.load_timers (s : State) (bytes : List Byte) :
    (s.load bytes).dt = s.dt ∧ (s.load bytes).st = s.st := by
  unfold State.load
  split
  · exact ⟨rfl, rfl⟩
  · rw [State.storeBytes_frame]
    exact ⟨rfl, rfl⟩

/-- R151 of one cycle: the timers, the outputs, and the batch counter it neither reads nor writes. -/
theorem cycle_timers_out_batch {s t : State} (h : cycle s = .next t) :
    (t.dt ≠ s.dt → ∃ x, s.decodedAtPc = .instr (.ldDt x)) ∧
    (t.st ≠ s.st → ∃ x, s.decodedAtPc = .instr (.ldSt x)) ∧
    (t.out = s.out ∨ ∃ w a, t.out = s.out ++ [.unknownOpcode w a]) ∧
    (∀ b, cycle { s with batch := b } = .next { t with batch := b }) ∧ t.batch = s.batch := by
  obtain ⟨hdt, hst, hout⟩ := cycle_timers_out h
  obtain ⟨t', ht', hkeep⟩ := cycle_total s
  cases h.symm.trans ht'
  exact ⟨hdt, hst, hout, fun b => (cycle_withBatch s b).trans (by rw [h]; rfl), hkeep.batch⟩

/-- Settles O54, by the cases of a cycle and of a step: besides a reset, only a cycle and the timer
step can leave another timer value behind. -/
theorem cycleLeavesTimersAndBatch : Obligations.CycleLeavesTimersAndBatch := by
  unfold Obligations.CycleLeavesTimersAndBatch
  refine ⟨fun _ _ => cycle_timers_out_batch, fun s t ht hn => ?_⟩
  have changed : ¬(t.dt = s.dt ∧ t.st = s.st) := fun h => hn.elim (· h.1) (· h.2)
  obtain ⟨t', ht', hcase⟩ := step_cases s
  cases ht.symm.trans ht'
  cases hcase with
  | reset rest hb hh => exact .inl ⟨hb, rest, hh⟩
  | cycled rest u b o _ hc _ =>
    obtain ⟨hdt, hst, _⟩ := cycle_timers_out hc
    exact .inr (.inl (hn.elim (fun h => (hdt h).imp fun _ => .inl) fun h => (hst h).imp fun _ => .inr))
  | timers rest i _ hb hi =>
    rw [State.timerStep_eq, State.timerStep_eq]
    exact .inr (.inr ⟨rfl, rfl, rfl, i, hb, hi⟩)
  | keyDown => exact absurd (State.keyDown_timers _ _) changed
  | keyUp => exact absurd (State.keyUp_timers _ _) changed
  | load => exact absurd (State.load_timers _ _) changed
  | restart => exact absurd ⟨rfl, rfl⟩ changed
  | noCore => exact absurd ⟨rfl, rfl⟩ changed

end Sys2Proof.Machine
end

section
/-! Jumps and skips: the instructions whose whole effect is on pc (spec/41_control_flow.md). -/

namespace Sys2Proof.Machine

/-! ### Jump -/

/-- Settles O15: the jump writes its target over the pre-advanced pc, and a 12-bit address is
zero-extended, so both sides are the same state. -/
theorem jumpSetsPc : Obligations.JumpSetsPc :=
  fun _ _ => rfl

/-! ### Skips -/

/-- The pre-advance and the further advance of a taken skip add up to one step of pc (R178). -/
theorem State.skipIf_eq (s : State) (taken : Bool) :
    s.skipIf taken = { s with pc := s.pc + (if taken then 4 else 2) } := by
  cases taken with
  | false => rfl
  | true =>
    have hpc : s.pc + 2 + 2 = s.pc + 4 := BitVec.add_assoc s.pc 2 2
    exact congrArg (fun a => { s with pc := a }) hpc

/-- A skip on equal bytes: taken exactly when they are equal. -/
theorem State.skipIf_beq (s : State) (a b : Byte) :
    s.skipIf (a == b) = { s with pc := s.pc + (if a = b then 4 else 2) } := by
  rw [State.skipIf_eq]
  by_cases hab : a = b <;> simp [hab]

/-- A skip on different bytes: taken exactly when they are not equal. -/
theorem State.skipIf_bne (s : State) (a b : Byte) :
    s.skipIf (a != b) = { s with pc := s.pc + (if a = b then 2 else 4) } := by
  rw [State.skipIf_eq]
  by_cases hab : a = b <;> simp [hab]

/-- Settles O17: the two instructions are the skip on equal and on different bytes, of Vx and kk. -/
theorem skipOnImmediate : Obligations.SkipOnImmediate :=
  fun x kk s => ⟨congrArg _ (s.skipIf_beq (s.readV x) kk), congrArg _ (s.skipIf_bne (s.readV x) kk)⟩

/-- Settles O18: the two instructions are the skip on equal and on different bytes, of Vx and Vy. -/
theorem skipOnRegisters : Obligations.SkipOnRegisters :=
  fun x y s =>
    ⟨congrArg _ (s.skipIf_beq (s.readV x) (s.readV y)), congrArg _ (s.skipIf_bne (s.readV x) (s.readV y))⟩

end Sys2Proof.Machine
end

section
/-! Register loads and the ALU instructions without a flag (spec/42_register_alu.md R202 to R207). -/

namespace Sys2Proof.Machine

/-- An instruction that writes one register over the pre-advanced state changes v and pc, and nothing
else. -/
theorem exec_eq_of_setV {i : Instr} {s : State} {x : Reg} {b : Byte}
    (h : exec i s = .next (s.advance.setV x b)) :
    exec i s = .next { s with v := s.v.set x.val b, pc := s.pc + 2 } := h

/-- 7xkk writes Vx + kk: its sum modulo 256 is the addition of bytes (R203). -/
theorem exec_addImm (x : Reg) (kk : Byte) (s : State) :
    exec (.addImm x kk) s = .next (s.advance.setV x (s.readV x + kk)) := by
  rw [← addBytes_eq]; rfl

/-- Settles O22: both instructions write one register, 6xkk the immediate itself and 7xkk the sum. -/
theorem loadAndAddImmediate : Obligations.LoadAndAddImmediate :=
  fun x kk s => ⟨exec_eq_of_setV rfl, exec_eq_of_setV (exec_addImm x kk s)⟩

/-- Settles O23: each of the four instructions is, by its definition, the write of one register, with
both operands read from the state before the write. -/
theorem copyAndBitwiseLogic : Obligations.CopyAndBitwiseLogic :=
  fun _ _ _ => ⟨exec_eq_of_setV rfl, exec_eq_of_setV rfl, exec_eq_of_setV rfl, exec_eq_of_setV rfl⟩

end Sys2Proof.Machine
end

section
/-! I and the memory access of Fx33 (spec/43_index_and_memory.md R240, R241, R243, R244). -/

namespace Sys2Proof.Machine

/-! ### I -/

/-- The glyph address does not wrap, and the mask 0x0F is the remainder modulo 16 (R243). -/
theorem toNat_glyphAddr (v : Byte) : (glyphAddr v).toNat = 0x050 + v.toNat % 16 * 5 := by
  have hmask : (v &&& 0x0F).toNat = v.toNat % 16 := Nat.and_two_pow_sub_one_eq_mod v.toNat 4
  simp only [glyphAddr, fontBase, glyphBytes, hmask, BitVec.toNat_ofNat]
  omega

/-- Settles O29: both instructions write I over the pre-advanced state, and a glyph address stays
within the fontset, so its 16 bits hold it. -/
theorem loadIndexAndGlyph : Obligations.LoadIndexAndGlyph :=
  ⟨fun _ _ => rfl, fun x s => ⟨glyphAddr (s.readV x), rfl, toNat_glyphAddr (s.readV x)⟩⟩

/-! ### Accesses through I -/

/-- Reading back byte k of a store that lies in memory. -/
theorem State.memRead_storeBytes_add {s : State} {a k : Nat} {bs : List Byte} (h : s.memOk)
    (hin : a + bs.length ≤ 4096) (hk : k < bs.length) : (s.storeBytes a bs).memRead (a + k) = bs[k] := by
  rw [State.memRead_storeBytes h hin, dif_pos (by omega)]
  simp only [Nat.add_sub_cancel_left]

/-- Reading outside a store that lies in memory. -/
theorem State.memRead_storeBytes_outside {s : State} {a b : Nat} {bs : List Byte} (h : s.memOk)
    (hin : a + bs.length ≤ 4096) (hb : b < a ∨ a + bs.length ≤ b) :
    (s.storeBytes a bs).memRead b = s.memRead b := by
  rw [State.memRead_storeBytes h hin, dif_neg (by omega)]

/-- A range check that fails records the lowest invalid address of the access (R240). -/
theorem rangeFault_of_le {base : Word} {count : Nat} (h : 4096 ≤ base.toNat + count - 1) :
    rangeFault base count = some (max base.toNat 4096) := if_pos h

/-! ### Fx33 -/

@[simp] theorem length_bcdDigits (v : Byte) : (bcdDigits v).length = 3 := rfl

/-- Each of the three digits fits its byte: the hundreds are at most 2, the others at most 9. -/
theorem toNat_bcdDigits (v : Byte) :
    (bcdDigits v)[0].toNat = v.toNat / 100 ∧ (bcdDigits v)[1].toNat = v.toNat / 10 % 10 ∧
    (bcdDigits v)[2].toNat = v.toNat % 10 := by
  have hv := v.isLt
  simp only [bcdDigits, List.getElem_cons_zero, List.getElem_cons_succ, BitVec.toNat_ofNat]
  omega

/-- Fx33 with its three bytes in memory stores the digits at I. -/
theorem exec_ldB_of_inRange {x : Reg} {s : State} (h : s.iReg.toNat + 2 < 4096) :
    exec (.ldB x) s = .next (s.advance.storeBytes s.iReg.toNat (bcdDigits (s.readV x))) := by
  have hrange : rangeFault s.iReg 3 = none := rangeFault_eq_none.mpr h
  simp only [exec, execLdB, hrange]

/-- Fx33 with a byte past memory latches, and stores nothing. -/
theorem exec_ldB_of_outOfRange {x : Reg} {s : State} (h : 4096 ≤ s.iReg.toNat + 2) :
    exec (.ldB x) s = .next (s.raise .addressOutOfBounds (max s.iReg.toNat 4096)) := by
  have hrange : rangeFault s.iReg 3 = some (max s.iReg.toNat 4096) := rangeFault_of_le h
  simp only [exec, execLdB, hrange]

/-- Settles O31, by the two outcomes of the range check: where it passes, the digits are read back from
the store and the frame is that of a store; where it fails, the latch is set. -/
theorem storeBcdDigits : Obligations.StoreBcdDigits := by
  unfold Obligations.StoreBcdDigits
  refine fun x s hm => ⟨fun h => ⟨_, exec_ldB_of_inRange h, ?_⟩, fun h => ⟨_, exec_ldB_of_outOfRange h, rfl⟩⟩
  have hin : s.iReg.toNat + (bcdDigits (s.readV x)).length ≤ 4096 := h
  have hread (k : Nat) (hk : k < 3) :=
    State.memRead_storeBytes_add (s := s.advance) (bs := bcdDigits (s.readV x)) hm hin hk
  obtain ⟨hhundreds, htens, hunits⟩ := toNat_bcdDigits (s.readV x)
  refine ⟨?_, ?_, ?_, fun a ha => ?_, ?_⟩
  · exact (congrArg BitVec.toNat (hread 0 (by decide))).trans hhundreds
  · exact (congrArg BitVec.toNat (hread 1 (by decide))).trans htens
  · exact (congrArg BitVec.toNat (hread 2 (by decide))).trans hunits
  · exact State.memRead_storeBytes_outside (s := s.advance) hm hin ha
  · rw [State.storeBytes_frame]; rfl

end Sys2Proof.Machine
end

section
/-! The framebuffer: who writes it, and what 00E0 makes of it (spec/44_display.md R272, R275). -/

namespace Sys2Proof.Machine

/-! ### Clear -/

/-- Every pixel of the cleared framebuffer is off (R272). -/
@[simp] theorem Framebuffer.pixel_clear (q : Nat) : Framebuffer.clear.pixel q = false := by
  unfold Framebuffer.pixel Framebuffer.clear
  rw [Vector.getElem_replicate]
  exact BitVec.getLsbD_zero

/-- Settles O36: 00E0 puts the cleared framebuffer over the pre-advanced state. -/
theorem clearScreenTurnsPixelsOff : Obligations.ClearScreenTurnsPixelsOff :=
  fun _ => ⟨Framebuffer.clear, rfl, fun q _ => Framebuffer.pixel_clear q⟩

/-! ### Who writes the framebuffer -/

/-- A cycle changes the framebuffer only by running an instruction that writes it. -/
theorem cycle_writesFb {s u : State} (h : cycle s = .next u) (hn : u.fb ≠ s.fb) :
    ∃ i, s.decodedAtPc = .instr i ∧ writesFb i = true := by
  obtain rfl | ⟨_, _, rfl⟩ | ⟨_, _, i, hd, hi⟩ | ⟨_, _, w, _, rfl⟩ := cycle_spec h
  · exact absurd rfl hn
  · exact absurd rfl hn
  · exact ⟨i, hd, (exec_frame hi).fb hn⟩
  · exact absurd rfl hn

/-- A key press leaves the framebuffer, also where it ends a key-wait (R294). -/
@[simp] theorem State.keyDown_fb (s : State) (k : Int) : (s.keyDown k).fb = s.fb := by
  unfold State.keyDown
  split
  · rfl
  · dsimp only
    split <;> rfl

/-- A key release leaves the framebuffer (R295). -/
@[simp] theorem State.keyUp_fb (s : State) (k : Int) : (s.keyUp k).fb = s.fb := by
  unfold State.keyUp; split <;> rfl

/-- A load, accepted or not, leaves the framebuffer (R383, R384). -/
@[simp] theorem State.load_fb (s : State) (bytes : List Byte) : (s.load bytes).fb = s.fb := by
  unfold State.load
  split
  · rfl
  · rw [State.storeBytes_frame]; rfl

/-- The timer step leaves the framebuffer (R342, R343). -/
@[simp] theorem State.timerStep_fb (s : State) : (s.timerStep).fb = s.fb := by
  rw [State.timerStep_eq]

/-- Settles O55, by the cases of a step: a reset and a cycle are the only ones that can leave another
framebuffer behind. What the host renders is the framebuffer by definition. -/
theorem onlyDrawingWritesPixels : Obligations.OnlyDrawingWritesPixels := by
  unfold Obligations.OnlyDrawingWritesPixels
  refine ⟨fun s t ht hn => ?_, fun _ => rfl⟩
  obtain ⟨t', ht', hcase⟩ := step_cases s
  cases ht.symm.trans ht'
  cases hcase with
  | reset rest hb hh => exact .inl ⟨hb, rest, hh⟩
  | cycled rest u b o _ hc _ => exact .inr (cycle_writesFb (s := { s with host := rest }) hc hn)
  | timers => exact absurd (State.timerStep_fb _) hn
  | keyDown => exact absurd (State.keyDown_fb _ _) hn
  | keyUp => exact absurd (State.keyUp_fb _ _) hn
  | load => exact absurd (State.load_fb _ _) hn
  | restart => exact absurd rfl hn
  | noCore => exact absurd rfl hn

end Sys2Proof.Machine
end

section
/-! The keypad: what a key release does (spec/45_keypad.md R295). -/

namespace Sys2Proof.Machine

/-- A key of the keypad is the key of its own number. -/
@[simp] theorem keyOf_val (j : Fin 16) : keyOf j.val = some j :=
  keyOf_of_mem (by omega)

/-- A release of a key of the keypad puts that key up (R295). -/
theorem State.keyUp_val (s : State) (j : Fin 16) : s.keyUp j.val = s.setKey j false := by
  rw [State.keyUp, keyOf_val]

/-- A release of a number that is no key is ignored (R295). -/
theorem State.keyUp_outside {s : State} {k : Int} (hk : k < 0 ∨ 15 < k) : s.keyUp k = s := by
  rw [State.keyUp, keyOf_eq_none.mpr (by omega)]

/-- Settles O43, by whether the number is a key: the step is the release, in a tick or not, and the
release is then the write of that one key, or nothing. -/
theorem keyReleaseOnlyClearsKey : Obligations.KeyReleaseOnlyClearsKey := by
  unfold Obligations.KeyReleaseOnlyClearsKey
  refine fun s k rest hh => ⟨?_, fun hk => ?_⟩
  · rintro j rfl
    exact (step_eq_keyUp hh).trans (congrArg _ (State.keyUp_val _ j))
  · exact (step_eq_keyUp hh).trans (congrArg _ (State.keyUp_outside hk))

end Sys2Proof.Machine
end

section
/-! The delay timer instructions (spec/46_timer_instructions.md R310, R311). -/

namespace Sys2Proof.Machine

/-- Settles O44: Fx07 writes one register, with DT, over the pre-advanced state, and Fx15 writes DT there,
with Vx read before the write. -/
theorem delayTimerInstructions : Obligations.DelayTimerInstructions :=
  fun _ _ => ⟨exec_eq_of_setV rfl, rfl⟩

end Sys2Proof.Machine
end

section
/-! The timers as state machines (spec/60_exceptions.md R344). -/

namespace Sys2Proof.Machine

/-- DT takes one countdown step (R342). -/
@[simp] theorem State.timerStep_dt (s : State) : s.timerStep.dt = countdown s.dt := by
  rw [State.timerStep_eq]

/-- ST takes one countdown step (R343). -/
@[simp] theorem State.timerStep_st (s : State) : s.timerStep.st = countdown s.st := by
  rw [State.timerStep_eq]

/-- ST's step from 1 is the one that emits PlayBeep (R343). -/
theorem State.timerStep_out (s : State) :
    (s.st = 1 → s.timerStep.out = s.out ++ [.playBeep]) ∧ (s.st ≠ 1 → s.timerStep.out = s.out) := by
  rw [State.timerStep_eq]
  exact ⟨fun h => if_pos h, fun h => if_neg h⟩

/-- The timer step writes the timers and the outputs only. -/
theorem State.timerStep_frame (s : State) :
    { s.timerStep with dt := s.dt, st := s.st, out := s.out } = s := by
  rw [State.timerStep_eq]

/-- Fx18 writes ST over the pre-advanced state, with no event (R312). -/
theorem exec_ldSt (x : Reg) (s : State) :
    exec (.ldSt x) s = .next { s.advance with st := s.readV x } := rfl

/-- Settles O46: both timers take a countdown step, PlayBeep marks ST's step from 1, and the writes by
Fx15 and Fx18 leave the outputs as they are. -/
theorem timersAreTwoStateMachines : Obligations.TimersAreTwoStateMachines := by
  unfold Obligations.TimersAreTwoStateMachines
  refine ⟨fun s => ?_, fun x s =>
    ⟨_, _, (delayTimerInstructions x s).2, rfl, rfl, exec_ldSt x s, rfl, rfl⟩⟩
  obtain ⟨dtZero, dtDown⟩ := countdown_spec s.dt
  obtain ⟨stZero, stDown⟩ := countdown_spec s.st
  obtain ⟨beep, silent⟩ := s.timerStep_out
  rw [s.timerStep_dt, s.timerStep_st]
  exact ⟨dtZero, dtDown, stZero, stDown, beep, silent, s.timerStep_frame⟩

end Sys2Proof.Machine
end

section
/-! The fields of a word, and the two round trips of decoder and encoder (spec/30_encoding.md R102 to
R115). -/

namespace Sys2Proof

/-! ### Fields -/

/-- A bit field is smaller than its width allows. -/
theorem bits_lt (w : Word) (hi lo : Nat) : bits w hi lo < 2 ^ (hi + 1 - lo) :=
  Nat.mod_lt _ (Nat.two_pow_pos _)

/-- The bit fields are digits of the word's value. -/
theorem fieldOp_eq (w : Word) : fieldOp w = w.toNat / 4096 % 16 := rfl
theorem bits_11_8 (w : Word) : bits w 11 8 = w.toNat / 256 % 16 := rfl
theorem bits_15_8 (w : Word) : bits w 15 8 = w.toNat / 256 % 256 := rfl
theorem bits_3_0 (w : Word) : bits w 3 0 = w.toNat % 16 := by simp [bits]
theorem bits_7_0 (w : Word) : bits w 7 0 = w.toNat % 256 := by simp [bits]
theorem bits_11_0 (w : Word) : bits w 11 0 = w.toNat % 4096 := by simp [bits]

/-- The register fields hold their four bits. -/
theorem val_fieldX (w : Word) : (fieldX w).val = w.toNat / 256 % 16 := Nat.mod_mod ..
theorem val_fieldY (w : Word) : (fieldY w).val = w.toNat / 16 % 16 := Nat.mod_mod ..
theorem val_fieldN (w : Word) : (fieldN w).val = w.toNat % 16 := by
  rw [fieldN, bits_3_0]; exact Nat.mod_mod ..
theorem toNat_fieldKk (w : Word) : (fieldKk w).toNat = w.toNat % 256 := by
  rw [fieldKk, bits_7_0, BitVec.toNat_ofNat, Nat.mod_mod]
theorem toNat_fieldNnn (w : Word) : (fieldNnn w).toNat = w.toNat % 4096 := by
  rw [fieldNnn, bits_11_0, BitVec.toNat_ofNat, Nat.mod_mod]

/-! ### The word of given fields has those fields -/

/-- The fields of an NNN word. -/
theorem fields_encNnn {op : Nat} (hop : op < 16) (nnn : Addr12) :
    fieldOp (encNnn op nnn) = op ∧ fieldNnn (encNnn op nnn) = nnn := by
  have hw := Laws.toNat_encNnn op nnn hop
  have := nnn.isLt
  refine ⟨by rw [fieldOp_eq, hw]; omega, BitVec.eq_of_toNat_eq ?_⟩
  rw [toNat_fieldNnn, hw]; omega

/-- The fields of an XKK word. -/
theorem fields_encXkk {op : Nat} (hop : op < 16) (x : Reg) (kk : Byte) :
    fieldOp (encXkk op x kk) = op ∧ fieldX (encXkk op x kk) = x ∧ fieldKk (encXkk op x kk) = kk := by
  have hw := Laws.toNat_encXkk op x kk hop
  have := x.isLt
  have := kk.isLt
  refine ⟨by rw [fieldOp_eq, hw]; omega, Fin.ext ?_, BitVec.eq_of_toNat_eq ?_⟩
  · rw [val_fieldX, hw]; omega
  · rw [toNat_fieldKk, hw]; omega

/-- The fields of a word given by its nibbles. -/
theorem fields_nibbles {op c d : Nat} (hop : op < 16) (x : Reg) (hc : c < 16) (hd : d < 16) :
    fieldOp (nibbles op x c d) = op ∧ fieldX (nibbles op x c d) = x ∧
    (fieldY (nibbles op x c d)).val = c ∧ bits (nibbles op x c d) 3 0 = d ∧
    bits (nibbles op x c d) 7 0 = c * 16 + d := by
  have hx := x.isLt
  have hw := Laws.toNat_nibbles hop hx hc hd
  refine ⟨by rw [fieldOp_eq, hw]; omega, Fin.ext ?_, ?_, ?_, ?_⟩
  · rw [val_fieldX, hw]; omega
  · rw [val_fieldY, hw]; omega
  · rw [bits_3_0, hw]; omega
  · rw [bits_7_0, hw]; omega

/-! ### Decoding the word of an instruction -/

/-- An XYF word, whose last nibble d selects the instruction within its family. -/
theorem fields_xyf {op d : Nat} (hop : op < 16) (x y : Reg) (hd : d < 16) :
    fieldOp (nibbles op x y d) = op ∧ fieldX (nibbles op x y d) = x ∧
    fieldY (nibbles op x y d) = y ∧ bits (nibbles op x y d) 3 0 = d := by
  obtain ⟨h1, h2, h3, h4, _⟩ := fields_nibbles hop x y.isLt hd
  exact ⟨h1, h2, Fin.ext h3, h4⟩

/-- The row count of an XYN word. -/
theorem fieldN_xyn {op : Nat} (hop : op < 16) (x y : Reg) (n : Fin 16) : fieldN (nibbles op x y n) = n := by
  obtain ⟨_, _, _, hn⟩ := fields_xyf hop x y n.isLt
  rw [bits_3_0] at hn
  exact Fin.ext ((val_fieldN _).trans hn)

/-- An XF word, whose last byte selects the instruction within its family. -/
theorem fields_xf {op c d : Nat} (hop : op < 16) (x : Reg) (hc : c < 16) (hd : d < 16) :
    fieldOp (nibbles op x c d) = op ∧ fieldX (nibbles op x c d) = x ∧
    bits (nibbles op x c d) 7 0 = c * 16 + d := by
  obtain ⟨h1, h2, _, _, h5⟩ := fields_nibbles hop x hc hd
  exact ⟨h1, h2, h5⟩

/-- Either decoder reads the word of an instruction as that instruction: the word has the fields it was
made from, op selects the family, and the family's last nibble or byte the instruction. -/
theorem decodeWord_encode (strict : Bool) (i : Instr) : decodeWord strict (encode i) = .instr i := by
  cases i
  case cls | ret => cases strict <;> decide
  case jp nnn => simp [encode, decodeWord, fields_encNnn (op := 1) (by decide)]
  case call nnn => simp [encode, decodeWord, fields_encNnn (op := 2) (by decide)]
  case ldI nnn => simp [encode, decodeWord, fields_encNnn (op := 10) (by decide)]
  case jpV0 nnn => simp [encode, decodeWord, fields_encNnn (op := 11) (by decide)]
  case seImm x kk => simp [encode, decodeWord, fields_encXkk (op := 3) (by decide)]
  case sneImm x kk => simp [encode, decodeWord, fields_encXkk (op := 4) (by decide)]
  case ldImm x kk => simp [encode, decodeWord, fields_encXkk (op := 6) (by decide)]
  case addImm x kk => simp [encode, decodeWord, fields_encXkk (op := 7) (by decide)]
  case rnd x kk => simp [encode, decodeWord, fields_encXkk (op := 12) (by decide)]
  case drw x y n =>
    simp [encode, decodeWord, fields_xyf (op := 13) (by decide) x y n.isLt, fieldN_xyn (op := 13) (by decide)]
  case seReg x y => simp [encode, decodeWord, decodeXy0, fields_xyf (op := 5) (d := 0) (by decide)]
  case sneReg x y => simp [encode, decodeWord, decodeXy0, fields_xyf (op := 9) (d := 0) (by decide)]
  case skp x | sknp x => simp [encode, decodeWord, decodeE, fields_xf (op := 14) (by decide)]
  case ldReg | orReg | andReg | xorReg | addReg | sub | shr | subn | shl =>
    simp [encode, decodeWord, decode8, fields_xyf (op := 8) (by decide)]
  all_goals simp [encode, decodeWord, decodeF, fields_xf (op := 15) (by decide)]

/-- The operands of an instruction fit their fields, since the types of the operands are the fields'
sizes. -/
theorem Instr.wellFormed_eq_true (i : Instr) : i.wellFormed = true := by
  cases i <;> simp [Instr.wellFormed, Laws.regFits_val, Laws.immFits_toNat, Laws.addrFits_toNat, Laws.countFits_val]

/-- The two bytes of a word make up the word again (R76, R77). -/
theorem wordOfBytes_bits (w : Word) :
    wordOfBytes (BitVec.ofNat 8 (bits w 15 8)) (BitVec.ofNat 8 (bits w 7 0)) = w := by
  apply BitVec.eq_of_toNat_eq
  have := w.isLt
  rw [Machine.toNat_wordOfBytes, bits_15_8, bits_7_0, BitVec.toNat_ofNat, BitVec.toNat_ofNat]
  omega

/-- The two bytes of an instruction's word decode to what the word decodes to. -/
theorem decodeBytes_bytesOfWord {strict : Bool} {w : Word} {i : Instr} (h : decodeWord strict w = .instr i) :
    decodeBytes strict (bytesOfWord w) = .inr (i, []) := by
  simp only [bytesOfWord, decodeBytes, wordOfBytes_bits, h]

/-- Settles O11: the word of an instruction decodes to it, and the two bytes of a word make up that word
again. -/
theorem decodeEncodeRoundTrip : Obligations.DecodeEncodeRoundTrip :=
  fun strict i =>
    ⟨i.wellFormed_eq_true, decodeWord_encode strict i, decodeBytes_bytesOfWord (decodeWord_encode strict i)⟩

/-! ### Words written out -/

/-- Settles O10, by evaluating the decoders on each word. -/
theorem wordsDecodeAsSpecified : Obligations.WordsDecodeAsSpecified := by
  unfold Obligations.WordsDecodeAsSpecified
  decide

end Sys2Proof
end

section
/-! What the strict decoder reads as an instruction is that instruction's only word (spec/30_encoding.md
section 3). -/

namespace Sys2Proof

/-! ### The word with the fields of a given word -/

/-- An NNN word is made up of its op and nnn. -/
theorem encNnn_fields {w : Word} {op : Nat} (hop : fieldOp w = op) : encNnn op (fieldNnn w) = w := by
  apply BitVec.eq_of_toNat_eq
  have := w.isLt
  rw [← hop, fieldOp_eq, Laws.toNat_encNnn _ _ (by omega), toNat_fieldNnn]
  omega

/-- An XKK word is made up of its op, x and kk. -/
theorem encXkk_fields {w : Word} {op : Nat} (hop : fieldOp w = op) :
    encXkk op (fieldX w) (fieldKk w) = w := by
  apply BitVec.eq_of_toNat_eq
  have := w.isLt
  rw [← hop, fieldOp_eq, Laws.toNat_encXkk _ _ _ (by omega), val_fieldX, toNat_fieldKk]
  omega

/-- A word is made up of its op, x, y and last nibble. -/
theorem nibbles_fields {w : Word} {op d : Nat} (hop : fieldOp w = op) (hd : bits w 3 0 = d) :
    nibbles op (fieldX w) (fieldY w) d = w := by
  apply BitVec.eq_of_toNat_eq
  have := w.isLt
  rw [← hop, ← hd, fieldOp_eq, bits_3_0, Laws.toNat_nibbles (by omega) (fieldX w).isLt (fieldY w).isLt (by omega),
    val_fieldX, val_fieldY]
  omega

/-- A word is made up of its op, x and the two nibbles of its last byte. -/
theorem nibbles_fields_kk {w : Word} {op c d : Nat} (hop : fieldOp w = op) (hd : d < 16)
    (hk : bits w 7 0 = c * 16 + d) : nibbles op (fieldX w) c d = w := by
  apply BitVec.eq_of_toNat_eq
  have := w.isLt
  rw [bits_7_0] at hk
  rw [← hop, fieldOp_eq, Laws.toNat_nibbles (by omega) (fieldX w).isLt (by omega) hd, val_fieldX]
  omega

/-! ### Family by family -/

/-- Family 0x0 under STRICT_DECODE: the whole word is matched (R106). -/
theorem encode_of_decode0 {w : Word} {i : Instr} (hop : fieldOp w = 0) (h : decode0 true w = .instr i) :
    encode i = w := by
  unfold decode0 at h
  split at h
  case isTrue => cases h
  case isFalse hx =>
    have hx0 : fieldX w = 0 := Fin.ext ((val_fieldX w).trans (by simpa [bits_11_8] using hx))
    split at h <;> cases h
    case h_1 hk => simpa [encode, hx0] using nibbles_fields_kk (c := 14) hop (by decide) hk
    case h_2 hk => simpa [encode, hx0] using nibbles_fields_kk (c := 14) hop (by decide) hk

/-- Families 0x5 and 0x9 under STRICT_DECODE: n is 0 (R107). -/
theorem decodeXy0_strict_eq_instr {w : Word} {i j : Instr} (h : decodeXy0 true w i = .instr j) :
    bits w 3 0 = 0 ∧ j = i := by
  unfold decodeXy0 at h
  split at h <;> cases h
  exact ⟨by simp_all, rfl⟩

/-- Family 0x8: n is the nibble of the instruction (R108). -/
theorem encode_of_decode8 {w : Word} {i : Instr} (hop : fieldOp w = 8) (h : decode8 w = .instr i) :
    encode i = w := by
  unfold decode8 at h
  split at h <;> cases h
  all_goals exact nibbles_fields hop ‹_›

/-- Family 0xE: kk is the byte of the instruction (R109). -/
theorem encode_of_decodeE {w : Word} {i : Instr} (hop : fieldOp w = 14) (h : decodeE w = .instr i) :
    encode i = w := by
  unfold decodeE at h
  split at h <;> cases h
  all_goals exact nibbles_fields_kk hop (by decide) ‹_›

/-- Family 0xF: kk is the byte of the instruction (R110). -/
theorem encode_of_decodeF {w : Word} {i : Instr} (hop : fieldOp w = 15) (h : decodeF w = .instr i) :
    encode i = w := by
  unfold decodeF at h
  split at h <;> cases h
  all_goals exact nibbles_fields_kk hop (by decide) ‹_›

/-- Settles O12, family by family: the fields of the word and what its family matched make up the word.
The case tagged h_k is op k - 1. -/
theorem encodeDecodeRoundTrip : Obligations.EncodeDecodeRoundTrip := by
  unfold Obligations.EncodeDecodeRoundTrip
  intro w i h
  unfold decodeWord at h
  split at h
  case h_1 hop => exact encode_of_decode0 hop h
  case h_6 hop | h_10 hop =>
    obtain ⟨hn, rfl⟩ := decodeXy0_strict_eq_instr h
    exact nibbles_fields hop hn
  case h_9 hop => exact encode_of_decode8 hop h
  case h_15 hop => exact encode_of_decodeE hop h
  case h_16 hop => exact encode_of_decodeF hop h
  case h_2 hop | h_3 hop | h_11 hop | h_12 hop => cases h; exact encNnn_fields hop
  case h_4 hop | h_5 hop | h_7 hop | h_8 hop | h_13 hop => cases h; exact encXkk_fields hop
  case h_14 hop =>
    cases h
    exact nibbles_fields hop ((bits_3_0 w).trans (val_fieldN w).symm)
  case h_17 => cases h

end Sys2Proof
end

section
/-! The words the strict decoder answers UNKNOWN, and the ones the two decoders read differently
(spec/30_encoding.md section 4). -/

namespace Sys2Proof

/-! ### UNKNOWN words, family by family -/

/-- kk is the byte k exactly when bits 7..0 are. -/
theorem fieldKk_eq_iff {w : Word} {k : Byte} : fieldKk w = k ↔ bits w 7 0 = k.toNat := by
  rw [← BitVec.toNat_inj, toNat_fieldKk, bits_7_0]

/-- n is the nibble d exactly when bits 3..0 are. -/
theorem fieldN_eq_iff {w : Word} {d : Fin 16} : fieldN w = d ↔ bits w 3 0 = d.val := by
  rw [Fin.ext_iff, val_fieldN, bits_3_0]

/-- In family 0x0, a word is the one with last byte k exactly when x is 0 and kk is k. -/
theorem eq_ofNat_iff_of_op_zero {w : Word} (hop : fieldOp w = 0) {k : Nat} (hk : k < 256) :
    w = BitVec.ofNat 16 k ↔ bits w 11 8 = 0 ∧ bits w 7 0 = k := by
  have := w.isLt
  rw [fieldOp_eq] at hop
  rw [← BitVec.toNat_inj, BitVec.toNat_ofNat, bits_11_8, bits_7_0]
  omega

/-- Family 0x0 under STRICT_DECODE knows two words (R106). -/
theorem decode0_strict_eq_unknown_iff {w : Word} (hop : fieldOp w = 0) :
    decode0 true w = .unknown w ↔ w ≠ 0x00E0 ∧ w ≠ 0x00EE := by
  have hcls : w = 0x00E0 ↔ _ := eq_ofNat_iff_of_op_zero hop (k := 0xE0) (by decide)
  have hret : w = 0x00EE ↔ _ := eq_ofNat_iff_of_op_zero hop (k := 0xEE) (by decide)
  rw [ne_eq, hcls, ne_eq, hret]
  unfold decode0
  by_cases hx : bits w 11 8 = 0
  · simp only [hx, bne_self_eq_false, Bool.and_false, Bool.false_eq_true, if_false]
    split <;> simp_all
  · simp [hx]

/-- Families 0x5 and 0x9 under STRICT_DECODE know n = 0 (R107). -/
theorem decodeXy0_strict_eq_unknown_iff {w : Word} {i : Instr} :
    decodeXy0 true w i = .unknown w ↔ fieldN w ≠ 0 := by
  rw [ne_eq, fieldN_eq_iff]
  unfold decodeXy0
  split <;> simp_all

/-- Family 0x8 knows nine values of n (R108). -/
theorem decode8_eq_unknown_iff {w : Word} :
    decode8 w = .unknown w ↔ fieldN w ∈ ([0x8, 0x9, 0xA, 0xB, 0xC, 0xD, 0xF] : List (Fin 16)) := by
  have hn := bits_lt w 3 0
  simp only [List.mem_cons, List.not_mem_nil, or_false, fieldN_eq_iff]
  unfold decode8
  split <;> simp_all
  omega

/-- Family 0xE knows two values of kk (R109). -/
theorem decodeE_eq_unknown_iff {w : Word} :
    decodeE w = .unknown w ↔ fieldKk w ∉ ([0x9E, 0xA1] : List Byte) := by
  simp only [List.mem_cons, List.not_mem_nil, or_false, fieldKk_eq_iff]
  unfold decodeE
  split <;> simp_all

/-- Family 0xF knows nine values of kk (R110). -/
theorem decodeF_eq_unknown_iff {w : Word} :
    decodeF w = .unknown w ↔
      fieldKk w ∉ ([0x07, 0x0A, 0x15, 0x18, 0x1E, 0x29, 0x33, 0x55, 0x65] : List Byte) := by
  simp only [List.mem_cons, List.not_mem_nil, or_false, fieldKk_eq_iff]
  unfold decodeF
  split <;> simp_all

/-- The op of a word is a nibble. -/
theorem fieldOp_lt (w : Word) : fieldOp w < 16 := bits_lt w 15 12

/-- The words the strict decoder answers UNKNOWN: those their family answers so (R111). -/
theorem decodeWord_strict_eq_unknown_iff (w : Word) :
    decodeWord true w = .unknown w ↔
    ((fieldOp w = 0x0 ∧ w ≠ 0x00E0 ∧ w ≠ 0x00EE) ∨
     ((fieldOp w = 0x5 ∨ fieldOp w = 0x9) ∧ fieldN w ≠ 0) ∨
     (fieldOp w = 0x8 ∧ fieldN w ∈ ([0x8, 0x9, 0xA, 0xB, 0xC, 0xD, 0xF] : List (Fin 16))) ∨
     (fieldOp w = 0xE ∧ fieldKk w ∉ ([0x9E, 0xA1] : List Byte)) ∨
     (fieldOp w = 0xF ∧
       fieldKk w ∉ ([0x07, 0x0A, 0x15, 0x18, 0x1E, 0x29, 0x33, 0x55, 0x65] : List Byte))) := by
  have hlt := fieldOp_lt w
  unfold decodeWord
  split
  case h_1 hop => simp [hop, decode0_strict_eq_unknown_iff hop]
  case h_6 hop | h_10 hop => simp [hop, decodeXy0_strict_eq_unknown_iff]
  case h_9 hop => rw [decode8_eq_unknown_iff]; simp [hop]
  case h_15 hop => rw [decodeE_eq_unknown_iff]; simp [hop]
  case h_16 hop => rw [decodeF_eq_unknown_iff]; simp [hop]
  case h_17 =>
    simp only [imp_false] at *
    omega
  all_goals rename_i hop; simp [hop]

/-- Settles O13: an UNKNOWN answer names the word itself, and the families say which words get one. -/
theorem unknownWordsExactly : Obligations.UnknownWordsExactly := by
  unfold Obligations.UnknownWordsExactly
  intro w u
  rw [← decodeWord_strict_eq_unknown_iff]
  constructor
  · intro h
    obtain rfl := Machine.eq_of_decodeWord_eq_unknown h
    exact ⟨rfl, h⟩
  · rintro ⟨rfl, h⟩
    exact h

/-! ### Where the two decoders differ -/

/-- The words of DECODE_AMBIGUOUS, by family (R114). -/
theorem decodeAmbiguous_iff {w : Word} :
    decodeAmbiguous w = true ↔
      ((fieldOp w = 5 ∨ fieldOp w = 9) ∧ bits w 3 0 ≠ 0) ∨
      (fieldOp w = 0 ∧ bits w 11 8 ≠ 0 ∧ (bits w 7 0 = 0xE0 ∨ bits w 7 0 = 0xEE)) := by
  simp [decodeAmbiguous, and_assoc]

/-- Family 0x0 of the two decoders differs only where x is not 0 and kk is one of the two bytes. -/
theorem decode0_lax_eq_strict {w : Word} (h : ¬(bits w 11 8 ≠ 0 ∧ (bits w 7 0 = 0xE0 ∨ bits w 7 0 = 0xEE))) :
    decode0 false w = decode0 true w := by
  by_cases hx : bits w 11 8 = 0
  · simp [decode0, hx]
  · unfold decode0
    split <;> simp_all

/-- Families 0x5 and 0x9 of the two decoders differ only where n is not 0. -/
theorem decodeXy0_lax_eq_strict {w : Word} {i : Instr} (h : bits w 3 0 = 0) :
    decodeXy0 false w i = decodeXy0 true w i := by
  simp [decodeXy0, h]

/-- Outside DECODE_AMBIGUOUS the decoders agree: only families 0x0, 0x5 and 0x9 look at the setting. -/
theorem decodeWord_lax_eq_strict {w : Word} (h : ¬decodeAmbiguous w = true) :
    decodeWord false w = decodeWord true w := by
  rw [decodeAmbiguous_iff] at h
  unfold decodeWord
  split
  case h_1 hop => exact decode0_lax_eq_strict fun hx => h (.inr ⟨hop, hx⟩)
  case h_6 hop => exact decodeXy0_lax_eq_strict (by by_contra hn; exact h (.inl ⟨.inl hop, hn⟩))
  case h_10 hop => exact decodeXy0_lax_eq_strict (by by_contra hn; exact h (.inl ⟨.inr hop, hn⟩))
  all_goals rfl

/-- Settles O14: outside DECODE_AMBIGUOUS by the families, and inside it by its four kinds of words. -/
theorem decodersDifferOnlyWhereNamed : Obligations.DecodersDifferOnlyWhereNamed := by
  unfold Obligations.DecodersDifferOnlyWhereNamed
  refine fun w => ⟨fun h => decodeWord_lax_eq_strict (by simp [h]), fun h => ?_⟩
  obtain ⟨hop | hop, hn⟩ | ⟨hop, hx, hk | hk⟩ := decodeAmbiguous_iff.mp h
  · simp [decodeWord, hop, decodeXy0, hn]
  · simp [decodeWord, hop, decodeXy0, hn]
  · simp [decodeWord, hop, decode0, hx, hk, fieldKk_eq_iff]
  · simp [decodeWord, hop, decode0, hx, hk, fieldKk_eq_iff]

end Sys2Proof
end

section
/-! What the host's operations leave as they are: each one as an equation on the state. -/

namespace Sys2Proof.Machine

/-- A press that ends a key-wait: the key goes down, its number goes to kw_reg, and pc goes past the
Fx0A (R294). -/
theorem State.keyDown_of_waiting {s : State} (hw : s.kwActive = true) (j : Fin 16) :
    s.keyDown j.val = { s with key := s.key.set j.val true, v := s.v.set s.kwReg.val (keyByte j),
                               kwActive := false, pc := s.pc + 2 } := by
  rw [State.keyDown, keyOf_val]
  exact if_pos hw

/-- A press with no key-wait on only puts the key down (R294). -/
theorem State.keyDown_of_not_waiting {s : State} (hw : s.kwActive = false) (j : Fin 16) :
    s.keyDown j.val = s.setKey j true := by
  rw [State.keyDown, keyOf_val]
  exact if_neg (by simp [hw])

/-- A press of a number that is no key is ignored (R294). -/
theorem State.keyDown_outside {s : State} {k : Int} (hk : k < 0 ∨ 15 < k) : s.keyDown k = s := by
  rw [State.keyDown, keyOf_eq_none.mpr (by omega)]

/-- A key number is outside 0..15, or that of a key. -/
theorem keyNumber_cases (k : Int) : (k < 0 ∨ 15 < k) ∨ ∃ j : Fin 16, k = (j.val : Int) := by
  by_cases hk : k < 0 ∨ 15 < k
  · exact .inl hk
  · exact .inr ⟨⟨k.toNat, by omega⟩, by simp only; omega⟩

/-- The cases of a key press: ignored, the end of a key-wait, or a key that goes down. -/
theorem State.keyDown_cases (s : State) (k : Int) :
    s.keyDown k = s ∨
    ∃ j : Fin 16, k = (j.val : Int) ∧
      ((s.kwActive = true ∧
        s.keyDown k = { s with key := s.key.set j.val true, v := s.v.set s.kwReg.val (keyByte j),
                               kwActive := false, pc := s.pc + 2 }) ∨
       (s.kwActive = false ∧ s.keyDown k = s.setKey j true)) := by
  obtain hk | ⟨j, rfl⟩ := keyNumber_cases k
  · exact .inl (State.keyDown_outside hk)
  · refine .inr ⟨j, rfl, ?_⟩
    cases hw : s.kwActive with
    | true => exact .inl ⟨rfl, State.keyDown_of_waiting hw j⟩
    | false => exact .inr ⟨rfl, State.keyDown_of_not_waiting hw j⟩

/-- The cases of a key release: ignored, or a key that goes up. -/
theorem State.keyUp_cases (s : State) (k : Int) : s.keyUp k = s ∨ ∃ j, s.keyUp k = s.setKey j false := by
  obtain hk | ⟨j, rfl⟩ := keyNumber_cases k
  · exact .inl (State.keyUp_outside hk)
  · exact .inr ⟨j, State.keyUp_val s j⟩

/-- A key press changes the keys, the registers, pc and the latch only. -/
theorem State.keyDown_frame (s : State) (k : Int) :
    s.keyDown k = { s with key := (s.keyDown k).key, v := (s.keyDown k).v,
                           kwActive := (s.keyDown k).kwActive, pc := (s.keyDown k).pc } := by
  obtain h | ⟨j, _, ⟨_, h⟩ | ⟨_, h⟩⟩ := s.keyDown_cases k <;> rw [h]
  rfl

/-- A key release changes the keys only. -/
theorem State.keyUp_frame (s : State) (k : Int) : s.keyUp k = { s with key := (s.keyUp k).key } := by
  obtain h | ⟨j, h⟩ := s.keyUp_cases k <;> rw [h]
  rfl

/-- A load of an image that fits (R383). -/
theorem State.load_of_fits {s : State} {bytes : List Byte} (h : bytes.length ≤ 3584) :
    s.load bytes = { s with mem := (s.storeBytes 0x200 bytes).mem, lastImage := some bytes,
                            out := s.out ++ [.returned .ok] } := by
  rw [State.load, if_neg (by simp only [progBase, memSize]; omega), State.storeBytes_frame]
  rfl

/-- A load of an image that does not fit (R384). -/
theorem State.load_of_tooLarge {s : State} {bytes : List Byte} (h : 3584 < bytes.length) :
    s.load bytes = { s with out := s.out ++ [.returned .romTooLarge] } := by
  rw [State.load, if_pos (by simp only [progBase, memSize]; omega)]
  rfl

/-- A load, accepted or not, changes memory, the host's image and the outputs only. -/
theorem State.load_frame (s : State) (bytes : List Byte) :
    s.load bytes = { s with mem := (s.load bytes).mem, lastImage := (s.load bytes).lastImage,
                            out := (s.load bytes).out } := by
  by_cases h : bytes.length ≤ 3584
  · rw [State.load_of_fits h]
  · rw [State.load_of_tooLarge (by omega)]

/-- A load keeps memory in canonical form (R43). -/
theorem State.load_memOk {s : State} (hm : s.memOk) (bytes : List Byte) : (s.load bytes).memOk := by
  by_cases h : bytes.length ≤ 3584
  · rw [State.load_of_fits h]
    exact State.storeBytes_wf hm
  · rw [State.load_of_tooLarge (by omega)]
    exact hm

end Sys2Proof.Machine
end

section
/-! Memory stays in canonical form (spec/10_state.md section 9). -/

namespace Sys2Proof.Machine

/-- A cycle keeps memory in canonical form: it is an instruction, or leaves memory. -/
theorem cycle_memOk {s u : State} (h : cycle s = .next u) (hm : s.memOk) : u.memOk := by
  obtain rfl | ⟨_, _, rfl⟩ | ⟨_, _, i, _, hi⟩ | ⟨_, _, w, _, rfl⟩ := cycle_spec h
  · exact hm
  · exact hm
  · exact (exec_frame hi).wf hm
  · exact hm

/-- Settles O57, by the cases of a step: a cycle and a load keep the form, a reset lists no byte, and no
other step touches memory. -/
theorem memoryStaysCanonical : Obligations.MemoryStaysCanonical := by
  unfold Obligations.MemoryStaysCanonical
  intro s t hm ht
  obtain ⟨t', ht', hcase⟩ := step_cases s
  cases ht.symm.trans ht'
  cases hcase with
  | cycled rest u b o _ hc _ => exact cycle_memOk (u := u) hc hm
  | load bytes rest => exact State.load_memOk (s := { s with host := rest }) hm bytes
  | reset => rfl
  | timers => rw [State.timerStep_eq]; exact hm
  | keyDown => rw [State.keyDown_frame]; exact hm
  | keyUp => rw [State.keyUp_frame]; exact hm
  | restart => exact hm
  | noCore => exact hm

end Sys2Proof.Machine
end

section
/-! pc and the saved return addresses stay near memory (spec/40_cycle_and_dispatch.md R144). -/

namespace Sys2Proof.Machine

/-- Every saved return address is in the bound of R144. -/
def State.stackNear (s : State) : Prop := ∀ j : Fin 16, s.stack[j.val].toNat ≤ 0x1000

/-- A cycle leaves pc and the latch, or leaves pc near memory, and it keeps the return addresses there:
what it runs it has fetched, so pc was in memory before. -/
theorem cycle_pcNear {s u : State} (h : cycle s = .next u) (hs : s.stackNear) :
    ((u.pc = s.pc ∧ u.kwActive = s.kwActive) ∨ u.pc.toNat ≤ 0x10FE) ∧ u.stackNear := by
  obtain rfl | ⟨_, _, rfl⟩ | ⟨hx, _, i, _, hi⟩ | ⟨hx, _, w, _, rfl⟩ := cycle_spec h
  · exact ⟨.inl ⟨rfl, rfl⟩, hs⟩
  · exact ⟨.inl ⟨rfl, rfl⟩, hs⟩
  · obtain ⟨hpc, hstack⟩ := (exec_frame hi).pc hx hs
    exact ⟨.inr hpc, hstack⟩
  · have hpc : (s.pc + 2).toNat ≤ 0x10FE := by
      have hx' : s.pc.toNat + 1 < 4096 := hx
      bv_omega
    exact ⟨.inr hpc, hs⟩

/-- What a step does to pc: it leaves pc and the latch, leaves pc near memory, or is the key press that
ends a key-wait. The return addresses stay near memory. -/
theorem step_pcNear {s t : State} (ht : step s = .next t) (hs : s.stackNear) :
    ((t.pc = s.pc ∧ t.kwActive = s.kwActive) ∨ t.pc.toNat ≤ 0x10FE ∨
      ((∃ (j : Fin 16) (rest : List HostOp), s.host = .setKeyDown (j.val : Int) :: rest) ∧
        s.kwActive = true ∧ t.pc = s.pc + 2 ∧ t.kwActive = false)) ∧ t.stackNear := by
  obtain ⟨t', ht', hcase⟩ := step_cases s
  cases ht.symm.trans ht'
  cases hcase with
  | cycled rest u b o _ hc _ =>
    obtain ⟨hpc, hstack⟩ := cycle_pcNear (s := { s with host := rest }) hc hs
    exact ⟨hpc.elim .inl fun h => .inr (.inl h), hstack⟩
  | keyDown k rest hh =>
    obtain h | ⟨j, rfl, ⟨hw, h⟩ | ⟨_, h⟩⟩ := State.keyDown_cases { s with host := rest } k <;> rw [h]
    · exact ⟨.inl ⟨rfl, rfl⟩, hs⟩
    · exact ⟨.inr (.inr ⟨⟨j, rest, hh⟩, hw, rfl, rfl⟩), hs⟩
    · exact ⟨.inl ⟨rfl, rfl⟩, hs⟩
  | keyUp => rw [State.keyUp_frame]; exact ⟨.inl ⟨rfl, rfl⟩, fun j => hs j⟩
  | reset =>
    exact ⟨.inr (.inl (by simp [State.resetCore, State.init])), fun j => by simp [State.resetCore, State.init]⟩
  | load bytes rest => rw [State.load_frame]; exact ⟨.inl ⟨rfl, rfl⟩, fun j => hs j⟩
  | timers => rw [State.timerStep_eq]; exact ⟨.inl ⟨rfl, rfl⟩, hs⟩
  | restart => exact ⟨.inl ⟨rfl, rfl⟩, hs⟩
  | noCore => exact ⟨.inl ⟨rfl, rfl⟩, hs⟩

/-- Settles O58, by what a step does to pc. A key press that ends a wait at its Fx0A finds pc in memory;
one that ends a broken wait finds it at most at 0x10FE. -/
theorem pcStaysBounded : Obligations.PcStaysBounded := by
  unfold Obligations.PcStaysBounded
  constructor
  · rintro s t hwait ⟨hpc, hstack⟩ ht
    obtain ⟨⟨heq, _⟩ | hle | ⟨_, hw, heq, _⟩, hstack'⟩ := step_pcNear ht hstack
    · exact ⟨heq ▸ hpc, hstack'⟩
    · exact ⟨hle, hstack'⟩
    · obtain ⟨_, hx, _⟩ := hwait hw
      have hx' : s.pc.toNat + 1 < 4096 := hx
      exact ⟨by bv_omega, hstack'⟩
  · rintro s t ⟨hpc, hwait, hstack⟩ ht
    obtain ⟨⟨heq, hk⟩ | hle | ⟨⟨j, rest, hh⟩, hw, heq, hk⟩, hstack'⟩ := step_pcNear ht hstack
    · exact ⟨⟨heq ▸ hpc, fun h => heq ▸ hwait (hk ▸ h), hstack'⟩, .inr (.inl heq)⟩
    · exact ⟨⟨by omega, fun _ => hle, hstack'⟩, .inl hle⟩
    · have hpc' := hwait hw
      exact ⟨⟨by bv_omega, fun h => absurd h (by simp [hk]), hstack'⟩, .inr (.inr ⟨j, rest, hh, hw, heq⟩)⟩

end Sys2Proof.Machine
end

section
/-! The key-wait: what sets the latch, and that pc stays at the waiting Fx0A (spec/45_keypad.md R293,
R297). -/

namespace Sys2Proof.Machine

/-- Settles O41: the roll-back of pc undoes the pre-advance, so the latch and its register are all that
is written. -/
theorem keyWaitSetsLatch : Obligations.KeyWaitSetsLatch := by
  unfold Obligations.KeyWaitSetsLatch
  intro x s
  have hpc : s.pc + 2 - 2 = s.pc := BitVec.add_sub_cancel s.pc 2
  simp only [exec, execLdK, State.advance, hpc]

/-- The instruction at pc depends on pc, memory and the parameters only. -/
theorem State.decodedAtPc_congr {s t : State} (hpc : t.pc = s.pc) (hm : t.mem = s.mem)
    (hp : t.params = s.params) : t.decodedAtPc = s.decodedAtPc := by
  simp only [State.decodedAtPc, State.fetch16, State.memRead, hpc, hm, hp]

/-- An Fx0A that runs again while it waits leaves the state as it is (R149). -/
theorem exec_ldK_of_waiting {s : State} (hw : s.kwActive = true) : exec (.ldK s.kwReg) s = .next s := by
  refine (keyWaitSetsLatch s.kwReg s).trans (congrArg _ ?_)
  rw [← hw]

/-- A cycle keeps the property of the key-wait: with the latch set it runs the waiting Fx0A again, and
otherwise only an Fx0A sets the latch, and leaves pc at itself. -/
theorem cycle_waitOk {s u : State} (h : cycle s = .next u) (hw : s.waitOk) : u.waitOk := by
  intro hu
  obtain rfl | ⟨hx, _, rfl⟩ | ⟨hx, hf, i, hd, hi⟩ | ⟨_, _, w, hd, rfl⟩ := cycle_spec h
  · exact hw hu
  · obtain ⟨_, hx', _⟩ := hw hu
    exact absurd hx' hx
  · obtain ⟨hk, _⟩ | ⟨rfl, hfault, hpc, hmem⟩ := (exec_frame hi).wait hu
    · obtain ⟨_, _, hd'⟩ := hw hk
      cases hd.symm.trans hd'
      cases (exec_ldK_of_waiting hk).symm.trans hi
      exact hw hu
    · obtain ⟨u', hu', hkeep⟩ := exec_total (.ldK u.kwReg) s
      cases hi.symm.trans hu'
      have hd' := State.decodedAtPc_congr hpc hmem hkeep.params
      refine ⟨?_, ?_, hd'.trans hd⟩
      · rw [State.faulted, hfault]; exact hf
      · rw [State.fetchable, hpc]; exact hx
  · obtain ⟨_, _, hd'⟩ := hw hu
    cases hd.symm.trans hd'

/-- With no load pending, a step keeps the property of the key-wait. -/
theorem step_waitOk {s t : State} (hw : s.waitOk) (hl : s.noLoadPending) (ht : step s = .next t) :
    t.waitOk := by
  obtain ⟨t', ht', hcase⟩ := step_cases s
  cases ht.symm.trans ht'
  cases hcase with
  | cycled rest u b o _ hc _ => exact cycle_waitOk (u := u) hc hw
  | load bytes rest _ hh => exact absurd (hl (.load bytes) (by simp [hh])) (by simp [HostOp.loads])
  | restart rest _ hh => exact absurd (hl .restart (by simp [hh])) (by simp [HostOp.loads])
  | reset => exact fun h => absurd h Bool.false_ne_true
  | keyDown k rest =>
    obtain h | ⟨j, _, ⟨_, h⟩ | ⟨_, h⟩⟩ := State.keyDown_cases { s with host := rest } k <;> rw [h]
    · exact hw
    · exact fun h => absurd h Bool.false_ne_true
    · exact hw
  | keyUp => rw [State.keyUp_frame]; exact hw
  | timers => rw [State.timerStep_eq]; exact hw
  | noCore => exact hw

/-- A step leaves pending only operations that were, but for a restart, which is a load. -/
theorem step_host_subset {s t : State} (hl : s.noLoadPending) (ht : step s = .next t) :
    ∀ op ∈ t.host, op ∈ s.host := by
  obtain ⟨t', ht', hcase⟩ := step_cases s
  cases ht.symm.trans ht'
  have htail {op rest} (hh : s.host = op :: rest) : ∀ o ∈ rest, o ∈ s.host :=
    fun o ho => hh ▸ List.mem_cons_of_mem op ho
  cases hcase with
  | cycled rest u b o hrest hc _ =>
    obtain ⟨u', hu', hkeep⟩ := cycle_total { s with host := rest }
    cases hc.symm.trans hu'
    have hhost : u.host = rest := hkeep.host
    exact fun op hop => hrest op (hhost ▸ hop)
  | restart rest _ hh => exact absurd (hl .restart (by simp [hh])) (by simp [HostOp.loads])
  | load bytes rest _ hh => rw [State.load_frame]; exact htail hh
  | reset rest _ hh => exact htail hh
  | keyDown k rest hh => rw [State.keyDown_frame]; exact htail hh
  | keyUp k rest hh => rw [State.keyUp_frame]; exact htail hh
  | timers rest i hrest => rw [State.timerStep_eq]; exact hrest
  | noCore rest b o hrest => exact hrest

/-- Settles O59: a step keeps the property of the key-wait, and adds no load. -/
theorem keyWaitStaysAtItsInstruction : Obligations.KeyWaitStaysAtItsInstruction :=
  fun _ _ hw hl ht => ⟨step_waitOk hw hl ht, fun op hop => hl op (step_host_subset hl ht op hop)⟩

end Sys2Proof.Machine
end

section
/-! The call stack: 2nnn and 00EE (spec/41_control_flow.md R170, R172). -/

namespace Sys2Proof.Machine

/-! ### Call -/

/-- 2nnn with room on the stack pushes the address after it and jumps. -/
theorem exec_call_of_room {nnn : Addr12} {s : State} (h : s.sp.val < 16) :
    exec (.call nnn) s = .next { s with
      pc := nnn.setWidth 16, stack := s.stack.set s.sp.val (s.pc + 2), sp := ⟨s.sp.val + 1, by omega⟩ } := by
  have hpush : s.advance.push s.advance.pc = some { s.advance with
      stack := s.stack.set s.sp.val (s.pc + 2), sp := ⟨s.sp.val + 1, by omega⟩ } := dif_pos h
  simp only [exec, execCall, hpush]
  rfl

/-- 2nnn on a full stack latches. -/
theorem exec_call_of_full {nnn : Addr12} {s : State} (h : s.sp.val = 16) :
    exec (.call nnn) s = .next (s.raise .stackOverflow s.pc.toNat) := by
  have hpush : s.advance.push s.advance.pc = none := State.push_eq_none.mpr h
  simp only [exec, execCall, hpush]

/-- Settles O19, by whether the stack has room. -/
theorem callPushesReturnAddress : Obligations.CallPushesReturnAddress :=
  fun _ _ => ⟨fun h => exec_call_of_room h, fun h => exec_call_of_full h⟩

/-! ### Return -/

/-- 00EE with an entry on the stack goes to the newest one and uncounts it. -/
theorem exec_ret_of_pos {s : State} (h : 0 < s.sp.val) :
    exec .ret s = .next { s with pc := s.stack[s.sp.val - 1], sp := ⟨s.sp.val - 1, by omega⟩ } := by
  have hpop : s.advance.pop = some (s.stack[s.sp.val - 1], { s.advance with sp := ⟨s.sp.val - 1, by omega⟩ }) :=
    dif_pos h
  simp only [exec, execRet, hpop]
  rfl

/-- 00EE on an empty stack latches. -/
theorem exec_ret_of_empty {s : State} (h : s.sp.val = 0) :
    exec .ret s = .next (s.raise .stackUnderflow s.pc.toNat) := by
  have hpop : s.advance.pop = none := State.pop_eq_none.mpr h
  simp only [exec, execRet, hpop]

/-- Settles O20, by whether the stack has an entry. -/
theorem returnPopsAddress : Obligations.ReturnPopsAddress :=
  fun _ => ⟨fun h => exec_ret_of_pos h, fun h => exec_ret_of_empty h⟩

/-- Settles O21: the return reads the entry the call wrote, at the SP the call counted up. -/
theorem returnGoesBackAfterCall : Obligations.ReturnGoesBackAfterCall := by
  unfold Obligations.ReturnGoesBackAfterCall
  intro nnn s t u hroom ht hstack hsp
  cases (exec_call_of_room hroom).symm.trans ht
  have hval : u.sp.val = s.sp.val + 1 := congrArg Fin.val hsp
  have hpos : 0 < u.sp.val := by omega
  have hentry : u.stack[u.sp.val - 1] = s.pc + 2 := by simp [hstack, hval]
  have hfree : (⟨u.sp.val - 1, by omega⟩ : Fin 17) = s.sp := Fin.ext (by simp only [hval]; omega)
  rw [exec_ret_of_pos hpos, hentry, hfree]

end Sys2Proof.Machine
end

section
/-! The accesses through I, by the outcome of the range check (spec/43_index_and_memory.md R240, R245,
R246; spec/44_display.md R273). -/

namespace Sys2Proof.Machine

/-! ### Fx55 and Fx65 -/

/-- Fx55 with its block in memory stores the block at I. -/
theorem exec_ldMemStore_of_inRange {x : Reg} {s : State} (h : s.iReg.toNat + x.val < 4096) :
    exec (.ldMemStore x) s =
      .next ((s.advance.storeBytes s.iReg.toNat (s.regBlock x)).advanceI x) := by
  have hrange : rangeFault s.iReg (x.val + 1) = none := rangeFault_eq_none.mpr h
  simp only [exec, execLdMemStore, hrange]

/-- Fx55 with a byte of its block past memory latches, and stores nothing. -/
theorem exec_ldMemStore_of_outOfRange {x : Reg} {s : State} (h : 4096 ≤ s.iReg.toNat + x.val) :
    exec (.ldMemStore x) s = .next (s.raise .addressOutOfBounds (max s.iReg.toNat 4096)) := by
  have hrange : rangeFault s.iReg (x.val + 1) = some (max s.iReg.toNat 4096) := rangeFault_of_le h
  simp only [exec, execLdMemStore, hrange]

/-- Fx65 with its block in memory loads the block from I. -/
theorem exec_ldMemLoad_of_inRange {x : Reg} {s : State} (h : s.iReg.toNat + x.val < 4096) :
    exec (.ldMemLoad x) s = .next ((s.advance.loadBlock s.iReg.toNat x).advanceI x) := by
  have hrange : rangeFault s.iReg (x.val + 1) = none := rangeFault_eq_none.mpr h
  simp only [exec, execLdMemLoad, hrange]

/-- Fx65 with a byte of its block past memory latches, and loads nothing. -/
theorem exec_ldMemLoad_of_outOfRange {x : Reg} {s : State} (h : 4096 ≤ s.iReg.toNat + x.val) :
    exec (.ldMemLoad x) s = .next (s.raise .addressOutOfBounds (max s.iReg.toNat 4096)) := by
  have hrange : rangeFault s.iReg (x.val + 1) = some (max s.iReg.toNat 4096) := rangeFault_of_le h
  simp only [exec, execLdMemLoad, hrange]

@[simp] theorem State.readV_advance (s : State) (i : Reg) : s.advance.readV i = s.readV i := rfl
@[simp] theorem State.readV_advanceI (s : State) (x i : Reg) : (s.advanceI x).readV i = s.readV i := rfl
@[simp] theorem State.memRead_advance (s : State) (a : Nat) : s.advance.memRead a = s.memRead a := rfl
@[simp] theorem State.memRead_advanceI (s : State) (x : Reg) (a : Nat) :
    (s.advanceI x).memRead a = s.memRead a := rfl

/-- What memory holds at an address depends on memory and the parameters only. -/
theorem State.memRead_congr {s t : State} (hm : t.mem = s.mem) (hp : t.params = s.params) (a : Nat) :
    t.memRead a = s.memRead a := by
  rw [State.memRead, State.memRead, hm, hp]

/-- What Fx65 loads: V0..Vx from memory, the other registers as they were (R246). -/
theorem State.readV_loadBlock (s : State) (a : Nat) (x i : Reg) :
    (s.loadBlock a x).readV i = if i ≤ x then s.memRead (a + i.val) else s.readV i :=
  Vector.getElem_ofFn ..

/-- What Fx55 stores: byte i of the block is Vi (R245). -/
theorem State.getElem_regBlock (s : State) (x i : Reg) (h : i.val < (s.regBlock x).length) :
    (s.regBlock x)[i.val] = s.readV i := by
  simp [State.regBlock, State.readV]

@[simp] theorem State.length_regBlock (s : State) (x : Reg) : (s.regBlock x).length = x.val + 1 := by
  simp only [State.regBlock, List.length_take, Vector.length_toList]
  omega

/-- With its block in memory, the advance of I does not wrap (R245, R246). -/
theorem toNat_advancedI {a : Word} {x : Reg} (h : a.toNat + x.val < 4096) :
    (a + BitVec.ofNat 16 (x.val + 1)).toNat = a.toNat + x.val + 1 := by
  rw [BitVec.toNat_add, BitVec.toNat_ofNat]
  omega

/-- Byte i of the block Fx55 stored reads as Vi. -/
theorem State.memRead_storeBytes_regBlock {s : State} {x i : Reg} (hm : s.memOk)
    (h : s.iReg.toNat + x.val < 4096) (hi : i ≤ x) :
    (s.storeBytes s.iReg.toNat (s.regBlock x)).memRead (s.iReg.toNat + i.val) = s.readV i := by
  have hlen : i.val < (s.regBlock x).length := by
    rw [State.length_regBlock]
    exact Nat.lt_succ_of_le hi
  have hin : s.iReg.toNat + (s.regBlock x).length ≤ 4096 := by
    rw [State.length_regBlock]
    exact h
  rw [State.memRead_storeBytes_add hm hin hlen, State.getElem_regBlock]

/-- Settles O32: the block is read back from the store, and the frame is that of a store. -/
theorem storeRegisterBlock : Obligations.StoreRegisterBlock := by
  unfold Obligations.StoreRegisterBlock
  intro x s hm h
  refine ⟨_, exec_ldMemStore_of_inRange h, fun i hi => ?_, fun a ha => ?_, ?_, ?_⟩
  · exact State.memRead_storeBytes_regBlock (s := s.advance) hm h hi
  · refine State.memRead_storeBytes_outside (s := s.advance) hm ?_ ?_ <;> rw [State.length_regBlock]
    · exact h
    · exact ha
  · rw [State.advanceI_iReg, State.storeBytes_frame]
    exact toNat_advancedI h
  · rw [State.storeBytes_frame]
    rfl

/-- Settles O33: a register of the block reads as memory, and I advances without a wrap. -/
theorem loadRegisterBlock : Obligations.LoadRegisterBlock := by
  unfold Obligations.LoadRegisterBlock
  intro x s h
  refine ⟨_, exec_ldMemLoad_of_inRange h, fun i => ?_, ?_, ?_⟩
  · rw [State.readV_advanceI, State.readV_loadBlock, State.readV_advance, State.memRead_advance]
  · rw [State.advanceI_iReg, State.loadBlock_iReg]
    exact toNat_advancedI h
  · simp

/-- Settles O34: Fx65 reads the block where Fx55 stored it, since memory and I are the same. -/
theorem loadAfterStoreRestores : Obligations.LoadAfterStoreRestores := by
  unfold Obligations.LoadAfterStoreRestores
  intro x s t u hm h ht hmem hparams hireg
  cases (exec_ldMemStore_of_inRange h).symm.trans ht
  refine ⟨_, exec_ldMemLoad_of_inRange (by rw [hireg]; exact h), fun i hi => ?_⟩
  rw [State.readV_advanceI, State.readV_loadBlock, if_pos hi, State.memRead_advance,
    State.memRead_congr hmem hparams, State.memRead_advanceI, hireg]
  exact State.memRead_storeBytes_regBlock (s := s.advance) hm h hi

/-! ### Dxyn -/

/-- The canvas after Dxyn: its rows drawn at (Vx, Vy) over the framebuffer (R273). -/
def State.drawn (s : State) (x y : Reg) (n : Fin 16) : Canvas :=
  Canvas.drawRows { fb := s.fb, collide := false } (s.readV x).toNat (s.readV y).toNat 0
    (s.loadBytes s.iReg.toNat n.val)

/-- Dxyn with its rows in memory leaves the drawn canvas, the collision in VF. -/
theorem exec_drw_of_inRange {x y : Reg} {n : Fin 16} {s : State}
    (h : n.val = 0 ∨ s.iReg.toNat + n.val - 1 < 4096) :
    exec (.drw x y n) s =
      .next (({ s.advance with fb := (s.drawn x y n).fb }).setV Reg.vf (flagByte (s.drawn x y n).collide)) := by
  have hrange : drawFault s.iReg n.val = none := by
    unfold drawFault
    split
    · rfl
    · exact rangeFault_eq_none.mpr (by omega)
  simp only [exec, execDrw, hrange]
  rfl

/-- Dxyn with a row past memory latches, and draws nothing. -/
theorem exec_drw_of_outOfRange {x y : Reg} {n : Fin 16} {s : State} (hn : 0 < n.val)
    (h : 4096 ≤ s.iReg.toNat + n.val - 1) :
    exec (.drw x y n) s = .next (s.raise .addressOutOfBounds (max s.iReg.toNat 4096)) := by
  have hrange : drawFault s.iReg n.val = some (max s.iReg.toNat 4096) := by
    rw [drawFault, if_neg (by omega)]
    exact rangeFault_of_le h
  simp only [exec, execDrw, hrange]

/-! ### All four -/

/-- Settles O35, by the instruction: each has its own lemma for a range check that fails. -/
theorem outOfRangeAccessLatches : Obligations.OutOfRangeAccessLatches := by
  unfold Obligations.OutOfRangeAccessLatches
  rintro i n s (⟨x, rfl, rfl⟩ | ⟨x, rfl | rfl, rfl⟩ | ⟨x, y, m, rfl, rfl, hpos⟩) h
  · exact exec_ldB_of_outOfRange h
  · exact exec_ldMemStore_of_outOfRange h
  · exact exec_ldMemLoad_of_outOfRange h
  · exact exec_drw_of_outOfRange hpos h

end Sys2Proof.Machine
end

section
/-! Ex9E and ExA1, by the key index of Vx (spec/45_keypad.md R290 to R292). -/

namespace Sys2Proof.Machine

/-- Under Mask4, and up to 0xF under either policy, the key index is the low nibble. -/
theorem keyIndex_eq_some {p : Params} {v : Byte} {k : Fin 16}
    (hv : v.toNat ≤ 0xF ∨ p.keyIndexPolicy = .mask4) (hk : k.val = v.toNat % 16) : keyIndex p v = some k := by
  by_cases hle : v.toNat ≤ 0xF
  · rw [keyIndex_of_le hle]
    exact congrArg some (Fin.ext (by simp only; omega))
  · have hmask : (v &&& 0x0F).toNat = v.toNat % 16 := Nat.and_two_pow_sub_one_eq_mod v.toNat 4
    rw [keyIndex_of_gt (by omega), hv.resolve_left hle]
    exact congrArg some (Fin.ext (by simp only [Fin.ofNat, hmask]; omega))

/-- Under Fault a value above 0xF has no key index. -/
theorem keyIndex_eq_none {p : Params} {v : Byte} (hv : 0xF < v.toNat) (hp : p.keyIndexPolicy = .fault) :
    keyIndex p v = none := by
  rw [keyIndex_of_gt hv, hp]

/-- With a key index, Ex9E and ExA1 are skips. -/
theorem exec_skp_of_some {x : Reg} {s : State} {k : Fin 16} (hk : keyIndex s.params (s.readV x) = some k) :
    exec (.skp x) s = .next (s.skipIf (s.key[k.val] == true)) := by
  simp only [exec, execSkp, hk]

theorem exec_sknp_of_some {x : Reg} {s : State} {k : Fin 16} (hk : keyIndex s.params (s.readV x) = some k) :
    exec (.sknp x) s = .next (s.skipIf (s.key[k.val] == false)) := by
  simp only [exec, execSknp, hk]

/-- Without a key index, they latch. -/
theorem exec_skp_of_none {x : Reg} {s : State} (hk : keyIndex s.params (s.readV x) = none) :
    exec (.skp x) s = .next (s.raise .keyIndexOutOfRange (s.readV x).toNat) := by
  simp only [exec, execSkp, hk]

theorem exec_sknp_of_none {x : Reg} {s : State} (hk : keyIndex s.params (s.readV x) = none) :
    exec (.sknp x) s = .next (s.raise .keyIndexOutOfRange (s.readV x).toNat) := by
  simp only [exec, execSknp, hk]

/-- Settles O40: with a key index both are skips on that key, without one both latch. -/
theorem skipOnKey : Obligations.SkipOnKey := by
  unfold Obligations.SkipOnKey
  refine fun x s k => ⟨fun hv hk => ?_, fun hv hp => ?_⟩
  · have hkey := keyIndex_eq_some hv hk
    rw [exec_skp_of_some hkey, exec_sknp_of_some hkey, State.skipIf_eq, State.skipIf_eq]
    cases s.key[k.val] <;> exact ⟨rfl, rfl⟩
  · have hkey := keyIndex_eq_none hv hp
    exact ⟨exec_skp_of_none hkey, exec_sknp_of_none hkey⟩

end Sys2Proof.Machine
end

section
/-! A fatal condition changes the latch alone (spec/40_cycle_and_dispatch.md R150, spec/60_exceptions.md
R322). -/

namespace Sys2Proof.Machine

@[simp] theorem State.skipIf_fault (s : State) (taken : Bool) : (s.skipIf taken).fault = s.fault := by
  rw [State.skipIf_eq]

@[simp] theorem State.writeback_fault (s : State) (x : Reg) (r f : Byte) :
    (s.writeback x r f).fault = s.fault := by
  rw [State.writeback_eq]

@[simp] theorem State.storeBytes_fault (s : State) (a : Nat) (bs : List Byte) :
    (s.storeBytes a bs).fault = s.fault := by
  rw [State.storeBytes_frame]

/-- The second state has the latch of the first, or differs from it in the latch alone. -/
def PreciseFault (s t : State) : Prop := t.fault = s.fault ∨ t = { s with fault := t.fault }

/-- A fatal condition is precise. -/
theorem PreciseFault.raise (s : State) (k : FaultKind) (n : Nat) : PreciseFault s (s.raise k n) := .inr rfl

/-- An instruction is precise: where it has a check that can fail, the failure is a `raise` of the state
at the start, and everything else leaves the latch. -/
theorem exec_preciseFault (i : Instr) (s : State) : ∃ t, exec i s = .next t ∧ PreciseFault s t := by
  cases i
  case seImm | sneImm | seReg | sneReg => exact ⟨_, rfl, .inl (State.skipIf_fault ..)⟩
  case addReg | sub | shr | subn | shl => exact ⟨_, rfl, .inl (State.writeback_fault s.advance ..)⟩
  case ret =>
    obtain h | h := Nat.eq_zero_or_pos s.sp.val
    · exact ⟨_, exec_ret_of_empty h, .raise ..⟩
    · exact ⟨_, exec_ret_of_pos h, .inl rfl⟩
  case call =>
    obtain h | h := Nat.lt_or_eq_of_le (Nat.le_of_lt_succ s.sp.isLt)
    · exact ⟨_, exec_call_of_room h, .inl rfl⟩
    · exact ⟨_, exec_call_of_full h, .raise ..⟩
  case skp x =>
    cases hk : keyIndex s.params (s.readV x) with
    | none => exact ⟨_, exec_skp_of_none hk, .raise ..⟩
    | some k => exact ⟨_, exec_skp_of_some hk, .inl (State.skipIf_fault ..)⟩
  case sknp x =>
    cases hk : keyIndex s.params (s.readV x) with
    | none => exact ⟨_, exec_sknp_of_none hk, .raise ..⟩
    | some k => exact ⟨_, exec_sknp_of_some hk, .inl (State.skipIf_fault ..)⟩
  case ldB x =>
    obtain h | h := Nat.lt_or_ge (s.iReg.toNat + 2) 4096
    · exact ⟨_, exec_ldB_of_inRange h, .inl (State.storeBytes_fault s.advance ..)⟩
    · exact ⟨_, exec_ldB_of_outOfRange h, .raise ..⟩
  case ldMemStore x =>
    obtain h | h := Nat.lt_or_ge (s.iReg.toNat + x.val) 4096
    · exact ⟨_, exec_ldMemStore_of_inRange h, .inl (State.storeBytes_fault s.advance ..)⟩
    · exact ⟨_, exec_ldMemStore_of_outOfRange h, .raise ..⟩
  case ldMemLoad x =>
    obtain h | h := Nat.lt_or_ge (s.iReg.toNat + x.val) 4096
    · exact ⟨_, exec_ldMemLoad_of_inRange h, .inl (by simp)⟩
    · exact ⟨_, exec_ldMemLoad_of_outOfRange h, .raise ..⟩
  case drw x y n =>
    by_cases h : n.val = 0 ∨ s.iReg.toNat + n.val - 1 < 4096
    · exact ⟨_, exec_drw_of_inRange h, .inl rfl⟩
    · exact ⟨_, exec_drw_of_outOfRange (by omega) (by omega), .raise ..⟩
  all_goals exact ⟨_, rfl, .inl rfl⟩

/-- Settles O9: every instruction is precise. -/
theorem fatalConditionsArePrecise : Obligations.FatalConditionsArePrecise :=
  exec_preciseFault

end Sys2Proof.Machine
end

section
/-! Drawing: which pixels Dxyn flips, its collision flag, and drawing twice (spec/44_display.md). -/

namespace Sys2Proof.Machine

/-! ### The pixels and the collision of one draw -/

@[simp] theorem State.length_loadBytes (s : State) (a n : Nat) : (s.loadBytes a n).length = n := by
  simp [State.loadBytes]

/-- Row r of the bytes read at a. -/
theorem State.getD_loadBytes (s : State) {a n r : Nat} (hr : r < n) :
    (s.loadBytes a n).getD r 0 = s.memRead (a + r) := by
  simp [State.loadBytes, List.getD_eq_getElem?_getD, hr]

/-- The pixel q is lit by the sprite that Dxyn would draw from this state. -/
def State.drawLights (s : State) (x y : Reg) (n : Fin 16) (q : Nat) : Bool :=
  spriteLit (s.readV x).toNat (s.readV y).toNat (s.loadBytes s.iReg.toNat n.val) q

/-- A pixel is lit by the set bit of some row and column (R270, R271). -/
theorem State.drawLights_iff {s : State} {x y : Reg} {n : Fin 16} {q : Nat} :
    s.drawLights x y n q = true ↔
      ∃ r c, r < n.val ∧ c < 8 ∧ spriteBit (s.memRead (s.iReg.toNat + r)) c = true ∧
        q = spritePixel (s.readV x).toNat (s.readV y).toNat r c := by
  simp only [State.drawLights, spriteLit, List.any_eq_true, List.mem_range, State.length_loadBytes,
    Bool.and_eq_true, beq_iff_eq]
  constructor
  · rintro ⟨r, hr, c, hc, hq, hbit⟩
    exact ⟨r, c, hr, hc, State.getD_loadBytes s hr ▸ hbit, hq.symm⟩
  · rintro ⟨r, c, hr, hc, hbit, hq⟩
    exact ⟨r, hr, c, hc, hq.symm, (State.getD_loadBytes s hr).symm ▸ hbit⟩

/-- Dxyn flips the lit pixels (R273). -/
theorem State.pixel_drawn {s : State} {x y : Reg} {n : Fin 16} {q : Nat} (hq : q < 2048) :
    (s.drawn x y n).fb.pixel q = (s.fb.pixel q != s.drawLights x y n q) :=
  (Canvas.drawRows_spec (by rw [State.length_loadBytes]; omega)).1 q hq

/-- Within one sprite a bit's pixel is lit exactly where that bit is set: no other bit hits it (R274). -/
theorem State.drawLights_spritePixel {s : State} {x y : Reg} {n : Fin 16} {r c : Nat} (hr : r < n.val)
    (hc : c < 8) :
    s.drawLights x y n (spritePixel (s.readV x).toNat (s.readV y).toNat r c) =
      spriteBit (s.memRead (s.iReg.toNat + r)) c := by
  rw [Bool.eq_iff_iff, State.drawLights_iff]
  constructor
  · rintro ⟨r', c', hr', hc', hbit, hq⟩
    obtain ⟨rfl, rfl⟩ := spritePixel_inj (by omega) (by omega) hc hc' hq
    exact hbit
  · exact fun hbit => ⟨r, c, hr, hc, hbit, rfl⟩

/-- Dxyn collides where a lit pixel was on (R273). -/
theorem State.collide_drawn {s : State} {x y : Reg} {n : Fin 16} :
    (s.drawn x y n).collide = true ↔ ∃ q < 2048, s.fb.pixel q = true ∧ s.drawLights x y n q = true := by
  rw [State.drawn, (Canvas.drawRows_spec (by rw [State.length_loadBytes]; omega)).2, List.any_eq_true]
  constructor
  · rintro ⟨⟨p, bit⟩, hmem, h⟩
    obtain ⟨hbit, hon⟩ := (Bool.and_eq_true _ _).mp h
    refine ⟨p, ?_, hon, ?_⟩
    · obtain ⟨r, _, c, _, heq⟩ := mem_spriteBits.mp hmem
      cases heq
      exact spritePixel_lt ..
    · rw [State.drawLights, ← spriteBits_any, List.any_eq_true]
      exact ⟨(p, bit), hmem, by simpa using hbit⟩
  · rintro ⟨q, _, hon, hlit⟩
    rw [State.drawLights, ← spriteBits_any, List.any_eq_true] at hlit
    obtain ⟨⟨p, bit⟩, hmem, h⟩ := hlit
    obtain ⟨hp, hbit⟩ := (Bool.and_eq_true _ _).mp h
    obtain rfl := beq_iff_eq.mp hp
    exact ⟨(p, bit), hmem, (Bool.and_eq_true _ _).mpr ⟨hbit, hon⟩⟩

/-- A pixel goes from on to off exactly where the canvas collides. -/
theorem State.collide_drawn_iff_turnsOff {s : State} {x y : Reg} {n : Fin 16} :
    (s.drawn x y n).collide = true ↔
      ∃ q < 2048, s.fb.pixel q = true ∧ (s.drawn x y n).fb.pixel q = false := by
  rw [State.collide_drawn]
  refine exists_congr fun q => and_congr_right fun hq => and_congr_right fun hon => ?_
  rw [State.pixel_drawn hq, hon]
  cases s.drawLights x y n q <;> decide

/-- Settles O37: the pixels of the drawn canvas are those of the framebuffer, flipped where the sprite
lights them, and the flag is its collision. -/
theorem drawFlipsLitPixels : Obligations.DrawFlipsLitPixels := by
  unfold Obligations.DrawFlipsLitPixels
  intro x y n s h
  refine ⟨(s.drawn x y n).fb, flagByte (s.drawn x y n).collide, exec_drw_of_inRange h, fun q hq => ?_, ?_⟩
  · have hlit := State.drawLights_iff (s := s) (x := x) (y := y) (n := n) (q := q)
    unfold spritePixel spriteBit at hlit
    rw [← hlit, State.pixel_drawn hq]
    cases s.fb.pixel q <;> cases s.drawLights x y n q <;> decide
  · have hoff := State.collide_drawn_iff_turnsOff (s := s) (x := x) (y := y) (n := n)
    cases hc : (s.drawn x y n).collide with
    | true => exact .inl ⟨rfl, hoff.mp hc⟩
    | false =>
      refine .inr ⟨rfl, fun q hq hon => ?_⟩
      by_contra hne
      exact absurd (hoff.mpr ⟨q, hq, hon, by simpa using hne⟩) (by simp [hc])

/-! ### Drawing twice -/

/-- After a draw the same sprite stands at the same place, where VF is no coordinate. -/
theorem drawLights_of_exec_drw {x y : Reg} {n : Fin 16} {s t : State} (hx : x ≠ 15) (hy : y ≠ 15)
    (h : n.val = 0 ∨ s.iReg.toNat + n.val - 1 < 4096) (ht : exec (.drw x y n) s = .next t) (q : Nat) :
    t.drawLights x y n q = s.drawLights x y n q := by
  cases (exec_drw_of_inRange h).symm.trans ht
  unfold State.drawLights
  rw [State.readV_setV_of_ne hx, State.readV_setV_of_ne hy]
  rfl

/-- The framebuffer after a draw is the drawn canvas's. -/
theorem fb_of_exec_drw {x y : Reg} {n : Fin 16} {s t : State}
    (h : n.val = 0 ∨ s.iReg.toNat + n.val - 1 < 4096) (ht : exec (.drw x y n) s = .next t) :
    t.fb = (s.drawn x y n).fb ∧ t.iReg = s.iReg := by
  cases (exec_drw_of_inRange h).symm.trans ht
  exact ⟨rfl, rfl⟩

/-- Settles O38: both draws flip the same pixels, and a pixel flipped twice is as before. -/
theorem drawingTwiceRestores : Obligations.DrawingTwiceRestores := by
  unfold Obligations.DrawingTwiceRestores
  intro x y n s t u hx hy h ht hu
  obtain ⟨hfb, hi⟩ := fb_of_exec_drw h ht
  obtain ⟨hfb', _⟩ := fb_of_exec_drw (hi ▸ h) hu
  refine Framebuffer.ext_pixel fun q hq => ?_
  rw [hfb', State.pixel_drawn hq, hfb, State.pixel_drawn hq, drawLights_of_exec_drw hx hy h ht]
  cases s.fb.pixel q <;> cases s.drawLights x y n q <;> rfl

/-! ### Distinct pixels -/

/-- Drawing one bit flips its pixel where it is set, and leaves every other pixel. -/
theorem Canvas.pixel_drawBit {k : Canvas} {p r : Nat} (hp : p < 2048) (hr : r < 2048) (a : Bool) :
    (k.drawBit p a).fb.pixel r = (k.fb.pixel r != (a && decide (p = r))) := by
  cases a with
  | false => simp [Canvas.drawBit]
  | true => exact Framebuffer.pixel_toggle hp hr

/-- Drawing one bit collides where it is set and its pixel is on. -/
theorem Canvas.collide_drawBit (k : Canvas) (p : Nat) (a : Bool) :
    (k.drawBit p a).collide = (k.collide || (a && k.fb.pixel p)) := by
  cases a <;> simp [Canvas.drawBit]

/-- Two canvases with the same pixels and the same collision are the same. -/
theorem Canvas.ext_fields {k l : Canvas} (hfb : k.fb = l.fb) (hc : k.collide = l.collide) : k = l := by
  cases k; cases l; cases hfb; cases hc; rfl

/-- Drawing at two distinct pixels commutes: each leaves the other's pixel, which is all the other reads. -/
theorem Canvas.drawBit_comm {k : Canvas} {p q : Nat} (a b : Bool) (hp : p < 2048) (hq : q < 2048)
    (hne : p ≠ q) : (k.drawBit p a).drawBit q b = (k.drawBit q b).drawBit p a := by
  have hfb : ((k.drawBit p a).drawBit q b).fb = ((k.drawBit q b).drawBit p a).fb := by
    refine Framebuffer.ext_pixel fun r hr => ?_
    rw [Canvas.pixel_drawBit hq hr, Canvas.pixel_drawBit hp hr, Canvas.pixel_drawBit hp hr,
      Canvas.pixel_drawBit hq hr, Bool.bne_assoc, Bool.bne_assoc]
    congr 1
    exact Bool.xor_comm ..
  have hcollide : ((k.drawBit p a).drawBit q b).collide = ((k.drawBit q b).drawBit p a).collide := by
    simp only [Canvas.collide_drawBit, Canvas.pixel_drawBit hp hq, Canvas.pixel_drawBit hq hp,
      decide_eq_false hne, decide_eq_false hne.symm, Bool.and_false, Bool.bne_false]
    exact Bool.or_right_comm ..
  exact Canvas.ext_fields hfb hcollide

/-- Settles O39: the pixel of a bit determines the bit, so after a draw each has changed exactly where its
own bit is set. -/
theorem spriteBitsHitDistinctPixels : Obligations.SpriteBitsHitDistinctPixels := by
  unfold Obligations.SpriteBitsHitDistinctPixels
  refine ⟨fun vx vy r c r' c' hr hr' hc hc' => ⟨spritePixel_lt .., ?_⟩,
    fun k p q a b => Canvas.drawBit_comm a b, fun x y n s h => ⟨_, exec_drw_of_inRange h, ?_⟩⟩
  · exact spritePixel_inj (by omega) (by omega) hc hc'
  · intro r c hr hc
    exact (State.pixel_drawn (spritePixel_lt ..)).trans (by rw [State.drawLights_spritePixel hr hc])

end Sys2Proof.Machine
end

section
/-! The ALU instructions with a flag, and the random byte (spec/42_register_alu.md R200, R201, R208 to
R213). -/

namespace Sys2Proof.Machine

/-! ### Flags as conditions on the operands -/

theorem carryFlag_eq (a b : Byte) : carryFlag a b = if 255 < a.toNat + b.toNat then 1 else 0 := by
  simp only [carryFlag, flagByte, decide_eq_true_eq, gt_iff_lt]

theorem noBorrowFlag_eq (a b : Byte) : noBorrowFlag a b = if b ≤ a then 1 else 0 := by
  simp only [noBorrowFlag, flagByte, decide_eq_true_eq, ge_iff_le, BitVec.le_def]

theorem shiftOutLow_eq (a : Byte) : shiftOutLow a = if a.getLsbD 0 then 1 else 0 := by
  rw [shiftOutLow, BitVec.getLsbD, Nat.testBit_zero]
  obtain h | h := Nat.mod_two_eq_zero_or_one a.toNat <;> simp [h]

theorem shiftOutHigh_eq (a : Byte) : shiftOutHigh a = if a.getLsbD 7 then 1 else 0 := by
  have ha := a.isLt
  have hbit : a.toNat / 2 ^ 7 % 2 = a.toNat / 128 := by omega
  rw [shiftOutHigh, BitVec.getLsbD, Nat.testBit_eq_decide_div_mod_eq, hbit]
  obtain h | h : a.toNat / 128 = 0 ∨ a.toNat / 128 = 1 := by omega
  all_goals simp [h]

/-! ### The write of result and flag -/

/-- With Vx not VF, both writes survive, in either order; the other registers and the rest of the state
stay (R201). -/
theorem State.writeback_of_ne {s : State} {x : Reg} (hx : x ≠ 15) (r f : Byte) :
    (s.writeback x r f).readV x = r ∧ (s.writeback x r f).readV 15 = f ∧
    (∀ i, i ≠ x → i ≠ 15 → (s.writeback x r f).readV i = s.readV i) ∧
    { s.writeback x r f with v := s.v } = s := by
  have hread (t : State) (i : Reg) (b : Byte) : (t.setV i b).readV i = b := Vector.getElem_set_self _
  unfold State.writeback
  split
  · refine ⟨?_, hread .., fun i hi hvf => ?_, rfl⟩
    · rw [State.readV_setV_of_ne hx, hread]
    · rw [State.readV_setV_of_ne hvf, State.readV_setV_of_ne hi]
  · refine ⟨hread .., ?_, fun i hi hvf => ?_, rfl⟩
    · rw [State.readV_setV_of_ne hx.symm, hread]
    · rw [State.readV_setV_of_ne hi, State.readV_setV_of_ne hvf]

/-- With VF as Vx, the later write survives (R201). -/
theorem State.writeback_vf (s : State) (r f : Byte) :
    s.writeback 15 r f = s.setV 15 (if s.params.vfFlagLast then f else r) := by
  rw [State.writeback_eq]
  split <;> simp [State.setV, Vector.set_set]

/-- A flag instruction with Vx not VF: what it leaves in the registers, and that nothing else but pc
changes. -/
theorem exec_writeback_of_ne {i : Instr} {s : State} {x : Reg} {r f r' f' : Byte} (hx : x ≠ 15)
    (h : exec i s = .next (s.advance.writeback x r f)) (hr : r = r') (hf : f = f') :
    ∃ t, exec i s = .next t ∧ t.readV x = r' ∧ t.readV 15 = f' ∧
      (∀ j, j ≠ x → j ≠ 15 → t.readV j = s.readV j) ∧ { t with v := s.v } = { s with pc := s.pc + 2 } := by
  subst hr hf
  exact ⟨_, h, State.writeback_of_ne (s := s.advance) hx r f⟩

/-- Settles O24: 8xy4 is the write of the sum and the carry. -/
theorem addWithCarryOut : Obligations.AddWithCarryOut :=
  fun _ _ _ hx => exec_writeback_of_ne hx rfl (addBytes_eq ..) (carryFlag_eq ..)

/-- Settles O25: both are the write of a difference and its "no borrow", with the operands swapped. -/
theorem subtractBothWays : Obligations.SubtractBothWays :=
  fun _ _ _ hx =>
    ⟨exec_writeback_of_ne hx rfl (subBytes_eq ..) (noBorrowFlag_eq ..),
      exec_writeback_of_ne hx rfl (subBytes_eq ..) (noBorrowFlag_eq ..)⟩

/-- Settles O26: both are the write of Vx shifted and the bit it lost. -/
theorem shiftBothWays : Obligations.ShiftBothWays :=
  fun _ _ _ hx =>
    ⟨exec_writeback_of_ne hx rfl (shiftRight1_eq _) (shiftOutLow_eq _),
      exec_writeback_of_ne hx rfl (shiftLeft1_eq _) (shiftOutHigh_eq _)⟩

/-- A flag instruction with VF as Vx writes VF alone. -/
theorem exec_writeback_vf {i : Instr} {s : State} {r f : Byte}
    (h : exec i s = .next (s.advance.writeback 15 r f)) :
    exec i s = .next { s with pc := s.pc + 2, v := s.v.set 15 (if s.params.vfFlagLast then f else r) } := by
  rw [h, State.writeback_vf]
  rfl

/-- Settles O27: each of the five writes VF alone, with its flag or its result by the write order. -/
theorem flagRegisterAsDestination : Obligations.FlagRegisterAsDestination := by
  unfold Obligations.FlagRegisterAsDestination
  refine fun y s => ⟨_, _, _, _, _, exec_writeback_vf rfl, exec_writeback_vf rfl, exec_writeback_vf rfl,
    exec_writeback_vf rfl, exec_writeback_vf rfl, fun hlast => ?_, fun hlast => ?_⟩
  · simp only [hlast, if_true]
    exact ⟨carryFlag_eq .., noBorrowFlag_eq .., noBorrowFlag_eq .., shiftOutLow_eq _, shiftOutHigh_eq _⟩
  · simp only [hlast, Bool.false_eq_true, if_false]
    exact ⟨addBytes_eq .., subBytes_eq .., subBytes_eq .., shiftRight1_eq _, shiftLeft1_eq _⟩

/-! ### The random byte -/

/-- Settles O28: the byte is the one drawn, and a byte under a mask has no bit outside it. -/
theorem randomByteUnderMask : Obligations.RandomByteUnderMask :=
  fun x kk s => ⟨Config.draw8 s.draws, rfl, by
    rw [BitVec.and_assoc, BitVec.and_not_self]
    exact BitVec.and_zero⟩

end Sys2Proof.Machine
end

section
/-! The targets of Bnnn and Fx1E, and the silent write of Fx18 (spec/41_control_flow.md R177,
spec/43_index_and_memory.md R242, spec/46_timer_instructions.md R312). -/

namespace Sys2Proof.Machine

/-- A 12-bit address and a byte add up to at most 0xFFF + 0xFF = 0x10FE, so 16 bits hold the sum (R177). -/
theorem toNat_offsetTarget (nnn : Addr12) (v0 : Byte) :
    (offsetTarget nnn v0).toNat = nnn.toNat + v0.toNat ∧ (offsetTarget nnn v0).toNat ≤ 0x10FE := by
  have := nnn.isLt
  have := v0.isLt
  rw [offsetTarget, BitVec.toNat_ofNat]
  omega

/-- Settles O16: the target is nnn + V0, which 16 bits hold. -/
theorem jumpWithOffsetAddsV0 : Obligations.JumpWithOffsetAddsV0 :=
  fun nnn s => ⟨offsetTarget nnn (s.readV 0), rfl, toNat_offsetTarget ..⟩

/-- Settles O30: the byte is zero-extended, and the sum is one of 16-bit words. -/
theorem addToIndexWrapsAt16Bits : Obligations.AddToIndexWrapsAt16Bits := by
  unfold Obligations.AddToIndexWrapsAt16Bits
  refine fun x s => ⟨_, rfl, ?_⟩
  rw [BitVec.toNat_add, BitVec.toNat_setWidth_of_le (by decide)]

/-- Settles O45: Fx18 writes ST over the pre-advanced state, which leaves the outputs. -/
theorem soundTimerWriteIsSilent : Obligations.SoundTimerWriteIsSilent :=
  exec_ldSt

end Sys2Proof.Machine
end

section
/-! Reset, the cycle as a step, and the host's operations (spec/10_state.md section 12,
spec/60_exceptions.md sections 2 to 5, spec/70_reset_and_hazards.md). -/

namespace Sys2Proof.Machine

/-! ### The reset state -/

/-- Outside the fontset the reset contents are 0 (R46). -/
theorem resetByte_outside {p : Params} {a : Nat} (h : a < 0x050 ∨ 0x0A0 ≤ a) : resetByte p a = 0 :=
  dif_neg (by simp only [fontBase]; omega)

/-- The glyphs stand one after another from 0x050, each of five bytes (R381). -/
theorem resetByte_font (p : Params) (g : Fin 16) (r : Fin 5) :
    resetByte p (0x050 + 5 * g.val + r.val) = p.font[g.val][r.val] := by
  have hglyph : (0x050 + 5 * g.val + r.val - fontBase) / glyphBytes = g.val := by
    simp only [fontBase, glyphBytes]; omega
  have hrow : (0x050 + 5 * g.val + r.val - fontBase) % glyphBytes = r.val := by
    simp only [fontBase, glyphBytes]; omega
  rw [resetByte, dif_pos (by simp only [fontBase]; omega)]
  simp only [hglyph, hrow]

/-- Settles O1: the registers, stack and keys are replicated, the framebuffer is the cleared one, and
memory, with no byte listed, reads as the reset contents. -/
theorem resetStateValues : Obligations.ResetStateValues :=
  ⟨rfl, fun p => ⟨fun _ => Vector.getElem_replicate _, rfl, rfl, fun _ => Vector.getElem_replicate _, rfl, rfl,
    rfl, fun _ => Vector.getElem_replicate _, Framebuffer.pixel_clear, rfl, rfl, rfl,
    fun _ ha => resetByte_outside (.inl ha), resetByte_font p, fun _ ha _ => resetByte_outside (.inr ha)⟩⟩

/-- Settles O2: the step is the host's reset, which keeps those fields. -/
theorem hostResetLeavesResetState : Obligations.HostResetLeavesResetState :=
  fun _ _ hb hh => step_eq_hostOp hb hh

/-- Settles O3: the values of the reset state meet each bound; no latch is set and no operation pending. -/
theorem resetMeetsInvariants : Obligations.ResetMeetsInvariants := by
  unfold Obligations.ResetMeetsInvariants
  intro p
  have hpc : (State.init p).pc.toNat = 0x200 := rfl
  have hstack : ∀ j : Fin 16, (State.init p).stack[j.val].toNat ≤ 0x1000 := by simp [State.init]
  exact ⟨rfl, ⟨by omega, hstack⟩, ⟨by omega, fun _ => by omega, hstack⟩, fun h => absurd h Bool.false_ne_true,
    fun _ h => absurd h List.not_mem_nil⟩

/-! ### The cycle as a step -/

/-- Settles O4: the step is the cycle, and the cycle exec of the instruction at pc. -/
theorem stepRunsDecodedInstruction : Obligations.StepRunsDecodedInstruction :=
  fun _ _ hb hh hf hx hd => (step_eq_cycle hb hh).trans (cycle_of_decodedAtPc_instr hf hx hd)

/-- Settles O7: the step is the cycle, whose fetch is fatal. -/
theorem fetchPastMemoryLatches : Obligations.FetchPastMemoryLatches :=
  fun _ hb hh hf hpc => (step_eq_cycle hb hh).trans (cycle_of_not_fetchable hf (Nat.not_lt.mpr hpc))

/-! ### cycle(), step() and tick() -/

/-- `cycle()` and `step()` run the cycle and return its result. -/
theorem hostCycle_eq {s u : State} (hc : cycle s = .next u) :
    hostCycle s = .next (u.emit (.returned (cycleResult s u))) := by
  rw [hostCycle, hc]
  rfl

/-- The result of a cycle on a faulted core is Halted (R148). -/
theorem cycleResult_of_faulted {s u : State} (hf : s.faulted = true) :
    cycleResult s u = .halted s.fault.kind s.fault.info := if_pos hf

/-- The result of a cycle on a core that was not faulted says whether it is now (R148). -/
theorem cycleResult_of_not_faulted {s u : State} (hf : s.faulted = false) :
    cycleResult s u = if u.faulted then .fatal u.fault.kind u.fault.info else .ok :=
  if_neg (by simp [hf])

/-- A cycle of a faulted core, invoked by the host, changes nothing and returns Halted (R141, R148). -/
theorem hostCycle_of_faulted {s : State} (hf : s.faulted = true) :
    hostCycle s = .next (s.emit (.returned (.halted s.fault.kind s.fault.info))) := by
  rw [hostCycle_eq (cycle_of_faulted hf), cycleResult_of_faulted hf]

/-- A tick on a faulted core changes nothing and returns Halted. -/
theorem hostTick_of_faulted {s : State} (hf : s.faulted = true) :
    hostOp .tick s = .next (s.emit (.returned (.halted s.fault.kind s.fault.info))) := if_pos hf

/-- A tick on a core that is not faulted starts a batch. -/
theorem hostTick_of_not_faulted {s : State} (hf : s.faulted = false) :
    hostOp .tick s = .next { s with batch := some 0 } := if_neg (by simp [hf])

/-- Settles O8: alone the step is the cycle, and otherwise the invoked operation, halted. -/
theorem faultedCoreStaysPut : Obligations.FaultedCoreStaysPut := by
  unfold Obligations.FaultedCoreStaysPut
  refine fun s hf hb => ⟨fun hh => (step_eq_cycle hb hh).trans (cycle_of_faulted hf), ?_⟩
  rintro op rest (rfl | rfl | rfl) hh <;> refine (step_eq_hostOp hb hh).trans ?_
  · exact hostCycle_of_faulted (s := { s with host := rest }) hf
  · exact hostCycle_of_faulted (s := { s with host := rest }) hf
  · exact hostTick_of_faulted (s := { s with host := rest }) hf

/-- Settles O47: the step is the invoked operation; a cycle always answers, and its result is read from
the states around it. -/
theorem hostInvokesCycleStepOrTick : Obligations.HostInvokesCycleStepOrTick := by
  unfold Obligations.HostInvokesCycleStepOrTick
  intro s op rest hb hf hh
  refine ⟨fun hop => ?_, ?_⟩
  · obtain ⟨u, hu, _⟩ := cycle_total { s with host := rest }
    refine ⟨u, hu, ?_⟩
    have hrun := hostCycle_eq hu
    rw [cycleResult_of_not_faulted (s := { s with host := rest }) hf] at hrun
    obtain rfl | rfl := hop <;> exact (step_eq_hostOp hb hh).trans hrun
  · rintro rfl
    exact (step_eq_hostOp hb hh).trans (hostTick_of_not_faulted (s := { s with host := rest }) hf)

/-! ### The core steps of a tick -/

/-- While the batch is open a cycle runs: it is counted, or, where fatal, ends the tick (R341). -/
theorem tickStep_of_open {s u : State} {i : Nat} (hi : i < s.params.cyclesPerTick) (hk : s.kwActive = false)
    (hc : cycle s = .next u) (hf : s.faulted = false) :
    tickStep i s = if u.faulted then
        .next { u with batch := none, out := u.out ++ [.returned (.fatal u.fault.kind u.fault.info)] }
      else .next { u with batch := some (i + 1) } := by
  rw [tickStep, if_pos ⟨hi, hk⟩, hc, onNext, cycleResult_of_not_faulted hf]
  split <;> rfl

/-- With the batch full or a key-wait on, the timer step runs and ends the tick (R341). -/
theorem tickStep_of_closed {s : State} {i : Nat} (h : s.params.cyclesPerTick ≤ i ∨ s.kwActive = true) :
    tickStep i s =
      .next { s.timerStep with batch := none, out := s.timerStep.out ++ [.returned .ok] } := by
  have hclosed : ¬(i < s.params.cyclesPerTick ∧ s.kwActive = false) := by
    rintro ⟨hi, hk⟩
    obtain h | h := h
    · omega
    · exact absurd h (by simp [hk])
  rw [tickStep, if_neg hclosed]
  rfl

/-- Settles O48: the step is the tick's, and the batch and the latch decide which. -/
theorem tickRunsBatchThenTimers : Obligations.TickRunsBatchThenTimers :=
  fun _ _ hb hh =>
    ⟨fun _ hi hk hc hf => (step_eq_tickStep hb hh).trans (tickStep_of_open hi hk hc hf),
      fun h => (step_eq_tickStep hb hh).trans (tickStep_of_closed h)⟩

/-! ### Whole ticks of a core that does not move -/

/-- A run starts with one step. -/
theorem core_run_succ {s t : State} (k : Nat) (h : step s = .next t) : core.run (k + 1) s = core.run k t := by
  have hstep : core.step s = .next t := h
  simp only [Host.Core.run, hstep]

/-- The state in a tick that has run i cycles, with nothing pending. -/
def State.inTick (s : State) (i : Nat) : State := { s with host := [], batch := some i }

/-- The host's tick, with nothing pending after it, starts a batch. -/
theorem step_tick {s : State} (hb : s.batch = none) (hh : s.host = [.tick]) (hf : s.faulted = false) :
    step s = .next (s.inTick 0) :=
  (step_eq_hostOp hb hh).trans (hostTick_of_not_faulted (s := { s with host := [] }) hf)

/-- In a tick with nothing pending, a step is the tick's. -/
theorem step_inTick (s : State) (i : Nat) : step (s.inTick i) = tickStep i (s.inTick i) :=
  step_eq_tickStep rfl fun _ _ h => absurd h (List.cons_ne_nil _ _).symm

/-- The state after a whole tick in which no cycle changed anything: the timers have counted. -/
def State.afterTimers (s : State) : State :=
  { s.timerStep with host := [], batch := none, out := s.timerStep.out ++ [.returned .ok] }

/-- The step that ends a tick with nothing pending. -/
theorem step_inTick_of_closed {s : State} {i : Nat} (h : s.params.cyclesPerTick ≤ i ∨ s.kwActive = true) :
    step (s.inTick i) = .next s.afterTimers := by
  rw [step_inTick, tickStep_of_closed (s := s.inTick i) h, State.afterTimers, State.timerStep_eq,
    State.timerStep_eq]
  rfl

/-- Settles O49: a tick starts its batch and, waiting, ends it with the timer step; a cycle runs the
waiting Fx0A again. -/
theorem waitingCoreOnlyCountsTimers : Obligations.WaitingCoreOnlyCountsTimers := by
  unfold Obligations.WaitingCoreOnlyCountsTimers
  intro s hw hwait hb
  obtain ⟨hf, hx, hd⟩ := hwait hw
  refine ⟨fun hh => ?_, fun hh => ?_⟩
  · rw [core_run_succ 1 (step_tick hb hh hf), core_run_succ 0 (step_inTick_of_closed (.inr hw))]
    rfl
  · exact (step_eq_cycle hb hh).trans ((cycle_of_decodedAtPc_instr hf hx hd).trans (exec_ldK_of_waiting hw))

/-- The word of a jump to an address in memory (R171). -/
theorem encode_jp_setWidth {a : Word} (ha : a.toNat ≤ 0x0FFF) : encode (.jp (a.setWidth 12)) = 0x1000 + a := by
  apply BitVec.eq_of_toNat_eq
  have hop : (0x1000 : Word).toNat = 4096 := rfl
  rw [encode, Laws.toNat_encNnn _ _ (by decide), BitVec.toNat_setWidth, BitVec.toNat_add, hop]
  omega

/-- An idle core runs a jump to itself, which changes nothing (R358). -/
theorem cycle_of_atIdle {s : State} (h : s.atIdle) : cycle s = .next s := by
  obtain ⟨hf, _, hx, hword, hpc⟩ := h
  have hd : s.decodedAtPc = .instr (.jp (s.pc.setWidth 12)) := by
    rw [State.decodedAtPc, hword, ← encode_jp_setWidth hpc]
    exact decodeWord_encode _ _
  have htarget : (s.pc.setWidth 12).setWidth 16 = s.pc := by
    apply BitVec.eq_of_toNat_eq
    rw [BitVec.toNat_setWidth, BitVec.toNat_setWidth]
    omega
  rw [cycle_of_decodedAtPc_instr hf hx hd, jumpSetsPc, htarget]

/-- While its batch is open, a tick of an idle core counts a cycle and changes nothing else. -/
theorem step_inTick_of_atIdle {s : State} {i : Nat} (h : s.atIdle) (hi : i < s.params.cyclesPerTick) :
    step (s.inTick i) = .next (s.inTick (i + 1)) := by
  have ⟨hf, hk, _⟩ := h
  have hc : cycle (s.inTick i) = .next (s.inTick i) := cycle_of_atIdle (s := s.inTick i) h
  have hf' : (s.inTick i).faulted = false := hf
  rw [step_inTick, tickStep_of_open (s := s.inTick i) hi hk hc hf', hf']
  rfl

/-- The rest of an idle core's tick, by the cycles its batch has left. -/
theorem run_inTick_of_atIdle {s : State} (h : s.atIdle) (k i : Nat) (hi : i + k = s.params.cyclesPerTick) :
    core.run (k + 1) (s.inTick i) = .next s.afterTimers := by
  induction k generalizing i with
  | zero =>
    rw [core_run_succ 0 (step_inTick_of_closed (.inl (by omega)))]
    rfl
  | succ k ih =>
    rw [core_run_succ (k + 1) (step_inTick_of_atIdle h (by omega))]
    exact ih (i + 1) (by omega)

/-- Settles O50: the tick starts its batch, and its idle cycles are followed by the timer step. -/
theorem idleTickOnlyCountsTimers : Obligations.IdleTickOnlyCountsTimers := by
  unfold Obligations.IdleTickOnlyCountsTimers
  refine fun s h hb => ⟨cycle_of_atIdle h, fun hh => ?_⟩
  rw [core_run_succ _ (step_tick hb hh h.1)]
  exact run_inTick_of_atIdle h s.params.cyclesPerTick 0 (Nat.zero_add _)

/-! ### Key presses, load and restart -/

/-- Settles O42: the step is the press, in a tick or not, and its cases are those of a press. -/
theorem keyPressEndsWait : Obligations.KeyPressEndsWait := by
  unfold Obligations.KeyPressEndsWait
  refine fun s k rest hh => ⟨?_, ?_, fun hk => ?_⟩
  · rintro j rfl hw
    exact (step_eq_keyDown hh).trans (congrArg _ (State.keyDown_of_waiting (s := { s with host := rest }) hw j))
  · rintro j rfl hw
    exact (step_eq_keyDown hh).trans
      (congrArg _ (State.keyDown_of_not_waiting (s := { s with host := rest }) hw j))
  · exact (step_eq_keyDown hh).trans (congrArg _ (State.keyDown_outside hk))

/-- Memory after a load of an image that fits reads as after the store of its bytes at 0x200. -/
theorem State.memRead_load_of_fits {s : State} {bytes : List Byte} (h : bytes.length ≤ 3584) (a : Nat) :
    (s.load bytes).memRead a = (s.storeBytes 0x200 bytes).memRead a := by
  rw [State.load, if_neg (by simp only [progBase, memSize]; omega)]
  rfl

/-- Settles O51: the step is the load; an image that fits is read back from the store. -/
theorem loadCopiesImage : Obligations.LoadCopiesImage := by
  unfold Obligations.LoadCopiesImage
  intro s bytes rest hm hb hh
  have hstep : step s = .next (({ s with host := rest } : State).load bytes) := step_eq_hostOp hb hh
  refine ⟨fun hfits => ?_, fun hlarge => ?_⟩
  · have hin : 0x200 + bytes.length ≤ 4096 := by omega
    refine ⟨_, hstep, fun k hk => ?_, fun a ha => ?_, ?_⟩
    · rw [State.memRead_load_of_fits hfits]
      exact State.memRead_storeBytes_add (s := { s with host := rest }) hm hin hk
    · rw [State.memRead_load_of_fits hfits]
      exact State.memRead_storeBytes_outside (s := { s with host := rest }) hm hin ha
    · rw [State.load_of_fits hfits]
  · rw [State.load_of_tooLarge hlarge] at hstep
    exact hstep

/-- With an image to reload, restart is a reset and a load of it (R388). -/
theorem State.restartOps_of_image {s : State} {bytes : List Byte} (hr : s.params.restartReloads = true)
    (hi : s.lastImage = some bytes) : s.restartOps = [.reset, .load bytes] := by
  rw [State.restartOps, hr, hi]

/-- Without one, restart is a reset (R388). -/
theorem State.restartOps_of_none {s : State} (h : s.params.restartReloads = false ∨ s.lastImage = none) :
    s.restartOps = [.reset] := by
  unfold State.restartOps
  split <;> simp_all

/-- Settles O52: the step puts the operations of the restart before those pending. -/
theorem restartIsResetThenLoad : Obligations.RestartIsResetThenLoad := by
  unfold Obligations.RestartIsResetThenLoad
  intro s rest hb hh
  have hstep : step s = .next { s with host := s.restartOps ++ rest } := step_eq_hostOp hb hh
  refine ⟨fun bytes hr hi => ?_, fun h => ?_⟩
  · rwa [State.restartOps_of_image hr hi] at hstep
  · rwa [State.restartOps_of_none h] at hstep

end Sys2Proof.Machine
end

section
/-! Who writes memory, the call stack, the keys and the parameters (spec/20_memory.md section 1,
spec/10_state.md sections 4 and 6). -/

namespace Sys2Proof.Machine

/-- What a cycle does to memory and the call stack: each changes only by running an instruction that
writes it. -/
theorem cycle_writesMem_usesStack {s u : State} (h : cycle s = .next u) :
    (u.mem ≠ s.mem → ∃ i, s.decodedAtPc = .instr i ∧ writesMem i = true) ∧
    (u.stack ≠ s.stack ∨ u.sp ≠ s.sp → ∃ i, s.decodedAtPc = .instr i ∧ usesStack i = true) := by
  obtain rfl | ⟨_, _, rfl⟩ | ⟨_, _, i, hd, hi⟩ | ⟨_, _, w, _, rfl⟩ := cycle_spec h
  · exact ⟨absurd rfl, fun hn => absurd hn (by simp)⟩
  · exact ⟨absurd rfl, fun hn => absurd hn (by simp)⟩
  · have hframe := exec_frame hi
    exact ⟨fun hn => ⟨i, hd, hframe.mem hn⟩, fun hn => ⟨i, hd, hframe.stack hn⟩⟩
  · exact ⟨absurd rfl, fun hn => absurd hn (by simp)⟩

/-- Only a cycle, a load and a reset change memory. -/
theorem step_writesMem {s t : State} (ht : step s = .next t) (hn : t.mem ≠ s.mem) :
    (s.batch = none ∧ ∃ rest, s.host = .reset :: rest) ∨
    (s.batch = none ∧ ∃ bytes rest, s.host = .load bytes :: rest) ∨
    (∃ i, s.decodedAtPc = .instr i ∧ writesMem i = true) := by
  obtain ⟨t', ht', hcase⟩ := step_cases s
  cases ht.symm.trans ht'
  cases hcase with
  | reset rest hb hh => exact .inl ⟨hb, rest, hh⟩
  | load bytes rest hb hh => exact .inr (.inl ⟨hb, bytes, rest, hh⟩)
  | cycled rest u b o _ hc _ => exact .inr (.inr ((cycle_writesMem_usesStack hc).1 hn))
  | timers => rw [State.timerStep_eq] at hn; exact absurd rfl hn
  | keyDown => rw [State.keyDown_frame] at hn; exact absurd rfl hn
  | keyUp => rw [State.keyUp_frame] at hn; exact absurd rfl hn
  | restart => exact absurd rfl hn
  | noCore => exact absurd rfl hn

/-- Only a cycle and a reset change the call stack. -/
theorem step_usesStack {s t : State} (ht : step s = .next t) (hn : t.stack ≠ s.stack ∨ t.sp ≠ s.sp) :
    (s.batch = none ∧ ∃ rest, s.host = .reset :: rest) ∨
    (∃ i, s.decodedAtPc = .instr i ∧ usesStack i = true) := by
  have changed : ¬(t.stack = s.stack ∧ t.sp = s.sp) := fun h => hn.elim (· h.1) (· h.2)
  obtain ⟨t', ht', hcase⟩ := step_cases s
  cases ht.symm.trans ht'
  cases hcase with
  | reset rest hb hh => exact .inl ⟨hb, rest, hh⟩
  | cycled rest u b o _ hc _ => exact .inr ((cycle_writesMem_usesStack hc).2 hn)
  | load => rw [State.load_frame] at changed; exact absurd ⟨rfl, rfl⟩ changed
  | timers => rw [State.timerStep_eq] at changed; exact absurd ⟨rfl, rfl⟩ changed
  | keyDown => rw [State.keyDown_frame] at changed; exact absurd ⟨rfl, rfl⟩ changed
  | keyUp => rw [State.keyUp_frame] at changed; exact absurd ⟨rfl, rfl⟩ changed
  | restart => exact absurd ⟨rfl, rfl⟩ changed
  | noCore => exact absurd ⟨rfl, rfl⟩ changed

/-- Only key events and a reset change the keys, and nothing the parameters. -/
theorem step_key_params {s t : State} (ht : step s = .next t) :
    (t.key ≠ s.key → (s.batch = none ∧ ∃ rest, s.host = .reset :: rest) ∨
      (∃ k rest, s.host = .setKeyDown k :: rest) ∨ (∃ k rest, s.host = .setKeyUp k :: rest)) ∧
    t.params = s.params := by
  obtain ⟨t', ht', hcase⟩ := step_cases s
  cases ht.symm.trans ht'
  cases hcase with
  | reset rest hb hh => exact ⟨fun _ => .inl ⟨hb, rest, hh⟩, rfl⟩
  | keyDown k rest hh => exact ⟨fun _ => .inr (.inl ⟨k, rest, hh⟩), by rw [State.keyDown_frame]⟩
  | keyUp k rest hh => exact ⟨fun _ => .inr (.inr ⟨k, rest, hh⟩), by rw [State.keyUp_frame]⟩
  | cycled rest u b o _ hc _ =>
    obtain ⟨u', hu', hkeep⟩ := cycle_total { s with host := rest }
    cases hc.symm.trans hu'
    exact ⟨fun hn => absurd hkeep.key hn, hkeep.params⟩
  | load => rw [State.load_frame]; exact ⟨absurd rfl, rfl⟩
  | timers => rw [State.timerStep_eq]; exact ⟨absurd rfl, rfl⟩
  | restart => exact ⟨absurd rfl, rfl⟩
  | noCore => exact ⟨absurd rfl, rfl⟩

/-- Settles O56, space by space. -/
theorem onlyNamedWritersOfSpaces : Obligations.OnlyNamedWritersOfSpaces :=
  fun _ _ ht => ⟨step_writesMem ht, step_usesStack ht, step_key_params ht⟩

end Sys2Proof.Machine
end
